-- ==== Sys2Proof/Word.lean ====
section
/-! DEFINITION. The words of TSCW: bytes, 32-bit words, port offsets, 41-bit port transactions, and the two enumerations a
port access carries. Spec: 00_scope R10 to R13, 20_memory R51, 30_encoding R76. -/

namespace Sys2Proof

/-- One character or buffer byte (R12, R74). -/
abbrev Byte := BitVec 8

/-- One 32-bit register or bus word (R23). -/
abbrev Word := BitVec 32

/-- A byte offset into the 256-byte register space (R23, R50). -/
abbrev Offset := BitVec 8

/-- One port transaction written out as a 41-bit word, PORT41 (R76). -/
abbrev Txn := BitVec 41

/-- The direction of a port access, DIR of R76. -/
inductive Dir where
  | read
  | write
deriving DecidableEq, Repr

/-- The width of a port access; the port accepts only 32 bits (R51). -/
inductive Width where
  | w8
  | w16
  | w32
deriving DecidableEq, Repr

/-- An offset with bits 1:0 zero, the only ones the port accepts (R51). -/
def wordAligned (off : Offset) : Bool := off.extractLsb' 0 2 == 0#2

/-- Byte `j` of a word under the little-endian packing of R52. -/
def Word.byte (w : Word) (j : Nat) : Byte := w.extractLsb' (8 * j) 8

end Sys2Proof
end

