-- ==== Sys2Proof/Config.lean ====
section
/-! DEFINITION. The parameters of TSCW (00_scope R8, R9): the constants the source or the spec fixes, the two named parameters
of the spec, and nothing else. -/

namespace Sys2Proof

/-- The two readings of the code word's low device field (R8, 90_conflicts C1). -/
inductive LowPairOrder where
  /-- Position 8 is device 0, position 9 is device 1: the spec's default. -/
  | vector
  /-- Position 8 is device 1, position 9 is device 0: the losing reading, kept as a parameter value. -/
  | formula
deriving DecidableEq, Repr

namespace Config

/-- The default of `LOW_PAIR_ORDER` (R8). The machine takes the parameter itself as `State.lowPairOrder` (R9, log entry 8). -/
def defaultLowPairOrder : LowPairOrder := .vector

/-- `TSCW_BASE`: the host address of offset 0x00, OPEN in the spec (R8, D2), so no proof can see its value (log entry 9). -/
opaque tscwBase : Nat

/-- `GROUP_LEN` (R8). -/
def groupLen : Nat := 5

/-- `kMaxSockets`: device selectors 0 to 4 (R8). -/
def kMaxSockets : Nat := 5

/-- `BROADCAST_DEVICE` (R8). -/
def broadcastDevice : Nat := 4

/-- `CODE_LEN` (R8). -/
def codeLen : Nat := 12

/-- `BITLEN_MAX` (R8). -/
def bitLenMax : Nat := 64

/-- `TIN_MAX` (R8). -/
def tinMax : Nat := 64

/-- `OUT_SIZE` (R8). -/
def outSize : Nat := 64

/-- `TOUT_SIZE` (R8). -/
def toutSize : Nat := 32

/-- `REG_SPACE` (R8). -/
def regSpace : Nat := 256

end Config
end Sys2Proof
end

