-- ==== Sys2Proof/Syntax.lean ====
section
/-! DEFINITION. The instructions of TSCW: one constructor per row of spec/opcode_table.json. The block fetches no program
(R21): an "instruction" here is one port transaction of the host, the four command words under their own names. -/

namespace Sys2Proof

/-- One row of the opcode table each. A write of any other word to CMD (the command ILLEGAL of R72) is `wr32 0x00 word`. -/
inductive Instr where
  /-- ENCODE, command word 0x00000001 (R71, R101). -/
  | encode
  /-- TO_BINARY, command word 0x00000002 (R71, R121). -/
  | toBinary
  /-- TO_TRISTATE, command word 0x00000003 (R71, R127). -/
  | toTristate
  /-- DIAG, command word 0x00000004 (R71, R133). -/
  | diag
  /-- WR32: a 32-bit port write of `data` at byte offset `off` (R55, R76). -/
  | wr32 (off : Offset) (data : Word)
  /-- RD32: a 32-bit port read at byte offset `off` (R55, R76). -/
  | rd32 (off : Offset)
deriving DecidableEq, Repr

end Sys2Proof
end

