-- ==== Sys2Proof/WellFormed.lean ====
section
/-! DEFINITION. Which instructions the port's encodings can name: the checks on an instruction as syntax. -/

namespace Sys2Proof

/-- The four legal command words of R71. -/
def isCommandWord (w : Word) : Bool :=
  w == 0x00000001#32 || w == 0x00000002#32 || w == 0x00000003#32 || w == 0x00000004#32

/-- A port access names an aligned offset (R51, and the table's rows WR32 and RD32, whose OFF[1:0] is 00). A write of a
legal command word to CMD is named by the command's own row (R24, R71, log entry 6). -/
def Instr.wellFormed : Instr → Bool
  | .encode => true
  | .toBinary => true
  | .toTristate => true
  | .diag => true
  | .wr32 off data => wordAligned off && !(off == 0x00#8 && isCommandWord data)
  | .rd32 off => wordAligned off

end Sys2Proof
end

