-- ==== Sys2Proof/Decode.lean ====
section
/-! DEFINITION. The two encodings of 30_encoding: the command word CMD32 (R70 to R73) and the port transaction PORT41 (R76),
decoder first, then the encoder, then the host's view of the opcode table. -/

namespace Sys2Proof

/-- What a word written to CMD selects (R71, R72). -/
inductive Command where
  | encode
  | toBinary
  | toTristate
  | diag
  | illegal
deriving DecidableEq, Repr

/-- The whole-word match of R73: total, and every word but four is ILLEGAL. -/
def decodeCommand (w : Word) : Command :=
  if w = 0x00000001#32 then .encode
  else if w = 0x00000002#32 then .toBinary
  else if w = 0x00000003#32 then .toTristate
  else if w = 0x00000004#32 then .diag
  else .illegal

/-- Why the port refuses an access (R51). -/
inductive DecodeError where
  /-- A width of 8 or 16 bits. -/
  | wrongWidth
  /-- An offset with bits 1:0 not zero. -/
  | misaligned
deriving DecidableEq, Repr

/-- DIR, bit 40 of a transaction (R76). -/
def txnDir (t : Txn) : Dir := if t.getLsbD 40 then .write else .read

/-- OFF, bits 39:32 of a transaction (R76). -/
def txnOff (t : Txn) : Offset := t.extractLsb' 32 8

/-- DATA, bits 31:0 of a transaction (R76). -/
def txnData (t : Txn) : Word := t.extractLsb' 0 32

/-- The instruction a write transaction names: at CMD the command its word selects (R24, R71), an illegal word staying the
write that it is (R72). -/
def decodeWrite (off : Offset) (data : Word) : Instr :=
  if off = 0x00#8 then
    match decodeCommand data with
    | .encode => .encode
    | .toBinary => .toBinary
    | .toTristate => .toTristate
    | .diag => .diag
    | .illegal => .wr32 off data
  else .wr32 off data

/-- The decoder: a port access of some width to an instruction, or the reason the port refuses it (R51). DATA of a read is
ignored (R76, log entry 7). -/
def decodeAccess (width : Width) (t : Txn) : Except DecodeError Instr :=
  if width ≠ .w32 then .error .wrongWidth
  else if wordAligned (txnOff t) = false then .error .misaligned
  else
    match txnDir t with
    | .write => .ok (decodeWrite (txnOff t) (txnData t))
    | .read => .ok (.rd32 (txnOff t))

/-- A write transaction of `data` at `off`, `DIR << 40 | OFF << 32 | DATA` with DIR = 1 (R76). -/
def writeTxn (off : Offset) (data : Word) : Txn := 1#1 ++ off ++ data

/-- A read transaction at `off`: DIR = 0 and DATA written as 0 (R76). -/
def readTxn (off : Offset) : Txn := 0#1 ++ off ++ 0#32

/-- The encoder: the 41-bit transaction of an instruction (R76; the commands by R71 and R84). -/
def encodeTxn : Instr → Txn
  | .encode => writeTxn 0x00#8 0x00000001#32
  | .toBinary => writeTxn 0x00#8 0x00000002#32
  | .toTristate => writeTxn 0x00#8 0x00000003#32
  | .diag => writeTxn 0x00#8 0x00000004#32
  | .wr32 off data => writeTxn off data
  | .rd32 off => readTxn off

/-- The transaction that brings a word of an opcode-table row to the port: a CMD32 row's 32-bit word is written to CMD
(R24, R70), a PORT41 row's word is the transaction itself (R76). -/
def tableTxn (nbits w : Nat) : Txn :=
  if nbits ≤ 32 then writeTxn 0x00#8 (BitVec.ofNat 32 w) else BitVec.ofNat 41 w

/-- How many bits a row of `nbits` whole-byte bits can hold: 32 for CMD32, 41 for PORT41. -/
def tableWidth (nbits : Nat) : Nat := if nbits ≤ 32 then 32 else 41

/-- What the decoder reads from a word of an opcode-table row; none where the word does not fit the row's format or the
port refuses the access. -/
def decodeTableWord (nbits w : Nat) : Option Instr :=
  if w < 2 ^ tableWidth nbits then
    match decodeAccess .w32 (tableTxn nbits w) with
    | .ok i => some i
    | .error _ => none
  else none

end Sys2Proof
end

