-- ==== Sys2Proof/Machine/State.lean ====
section
/-! DEFINITION. The state of TSCW (10_state R20), its value after reset (R46), and the reasons a step can stop. The spec's own
groups are kept: the operand registers, which only the host writes (R18, R43), and the result state, which only commands
write (R18, R39). -/

namespace Sys2Proof.Machine

/-- A byte buffer as the list of its cells (index, byte): indexes strictly rising, no cell holding 0x00, which is what an
unlisted byte reads as (R46). `Memory.wf` in Machine/Ops.lean says so. -/
abbrev Memory := List Host.Cell

/-- STATUS.CAUSE (R29): the codes 0 to 7 of R160; codes 8 to 15 are never written. -/
inductive Cause where
  | none
  | illegalCmd
  | groupAbsent
  | deviceRange
  | groupShort
  | bitLenRange
  | valueTooWide
  | tinLenRange
deriving DecidableEq, Repr

/-- STATUS (R25), its implemented fields; the reserved bits read 0. -/
structure Status where
  ok : Bool
  na : Bool
  unknown : Bool
  cause : Cause
  outLen : Byte
  done : Bool
deriving DecidableEq, Repr

/-- DIAG_INFO (R38), its implemented fields. -/
structure DiagInfo where
  triLen : Byte
  rawCount : Byte
deriving DecidableEq, Repr

/-- ENC_CTRL (R32), its implemented fields. -/
structure EncCtrl where
  turnOn : Bool
  groupPresent : Bool
deriving DecidableEq, Repr

/-- The operand registers (R18, R32 to R37) and the TIN buffer (R40). -/
structure Operands where
  encCtrl : EncCtrl
  device : Word
  groupLo : Word
  /-- GROUP_HI bits 7:0, the implemented ones (R34). -/
  groupHi : Byte
  value : Word
  bitLen : Word
  /-- TIN_LEN bits 7:0, the implemented ones (R37). -/
  tinLen : Byte
  tin : Memory
deriving DecidableEq, Repr

/-- The result state (R18): STATUS, DIAG_INFO, OUT (R41) and TOUT (R42). -/
structure Results where
  status : Status
  diagInfo : DiagInfo
  out : Memory
  tout : Memory
deriving DecidableEq, Repr

/-- RESP of a transaction's response (R76). -/
inductive Resp where
  | ok
  | err
deriving DecidableEq, Repr

/-- The response to a transaction (R76): RESP, and for a read RDATA. -/
structure Response where
  resp : Resp
  rdata : Option Word
deriving DecidableEq, Repr

/-- What the host can do to the block (R170). -/
inductive PortInput where
  /-- A port access of some width; `txn` holds its DIR, OFF and DATA as R76 lays them out. -/
  | access (width : Width) (txn : Txn)
  /-- The reset input, between transactions (R180). -/
  | reset
  /-- The reset input during that access, which R170 lists as ASSUMED never. -/
  | resetDuring (width : Width) (txn : Txn)
deriving DecidableEq, Repr

/-- Why the machine stops. -/
inductive Fault where
  /-- Raised by `step` alone, when the next input is a reset during a transaction: R170 gives it "no move in a model".
  Safe: the model stops where a chip would go on in some state (log entry 5). -/
  | resetDuringTransaction
deriving DecidableEq, Repr

/-- Why an instruction has no meaning. -/
inductive Refusal where
  /-- Raised by an arm of `exec` whose instruction has no meaning yet; no arm does. Safe: the model stops. -/
  | notModelled (mnemonic : String)
deriving DecidableEq, Repr

/-- The machine. `operands` and `results` are the whole architectural state of the block (R20). `lowPairOrder` is the parameter
the machine takes, and the last three fields are the model's own record of the host port. -/
structure State where
  /-- `LOW_PAIR_ORDER`, a parameter of the block and no register: every run has it from its first state to its last (R9, log
  entry 8). -/
  lowPairOrder : LowPairOrder
  operands : Operands
  results : Results
  /-- The response to the last transaction, none before the first (R76, log entry 3). -/
  response : Option Response
  /-- Set by a refused access, "recorded and never cleared" (R51, log entry 4). -/
  hostFault : Bool
  /-- What the host will still do, oldest first (R60, log entry 1). -/
  inputs : List PortInput
deriving DecidableEq, Repr

/-- Every operand register and every byte of TIN zero (R46). -/
def Operands.reset : Operands where
  encCtrl := { turnOn := false, groupPresent := false }
  device := 0
  groupLo := 0
  groupHi := 0
  value := 0
  bitLen := 0
  tinLen := 0
  tin := []

/-- STATUS and DIAG_INFO zero, every byte of OUT and TOUT zero (R46). -/
def Results.reset : Results where
  status := { ok := false, na := false, unknown := false, cause := .none, outLen := 0, done := false }
  diagInfo := { triLen := 0, rawCount := 0 }
  out := []
  tout := []

/-- The machine right after reset (R46, R180), the host not yet heard from, its parameter at the default of R8. -/
def State.reset : State where
  lowPairOrder := Config.defaultLowPairOrder
  operands := .reset
  results := .reset
  response := none
  hostFault := false
  inputs := []

end Sys2Proof.Machine
end

