-- ==== Sys2Proof/Machine/Ops.lean ====
section
/-! DEFINITION. The named operations every instruction is built from: bytes of a buffer, the clearing of the result state,
the raising of an error, the completion of a command, and what the port answers. -/

namespace Sys2Proof.Machine

/-! Byte buffers (R40 to R42): reads, writes, and the little-endian words of R52. -/

/-- What a byte nothing has written reads as: the reset content of R46. -/
def Memory.unlisted : Byte := 0x00#8

/-- Byte `i` of a buffer. -/
def Memory.read : Memory → Nat → Byte
  | [], _ => Memory.unlisted
  | (k, b) :: rest, i => if k = i then b else Memory.read rest i

/-- `B[i] <- b`, keeping the canonical form: the cell goes where its index belongs, and a byte equal to what an unlisted one
reads as is not listed. -/
def Memory.write : Memory → Nat → Byte → Memory
  | [], i, b => if b = Memory.unlisted then [] else [(i, b)]
  | (k, c) :: rest, i, b =>
    if i < k then (if b = Memory.unlisted then (k, c) :: rest else (i, b) :: (k, c) :: rest)
    else if i = k then (if b = Memory.unlisted then rest else (i, b) :: rest)
    else (k, c) :: Memory.write rest i b

/-- The cells' indexes rise from `lo`, stay below `size`, and no cell holds an unlisted byte's value. -/
def Memory.wfFrom (size : Nat) : Nat → Memory → Bool
  | _, [] => true
  | lo, (k, b) :: rest =>
    decide (lo ≤ k) && decide (k < size) && !(b == Memory.unlisted) && Memory.wfFrom size (k + 1) rest

/-- The canonical form of a buffer of `size` bytes: equal contents are equal lists (log entry 10). -/
def Memory.wf (size : Nat) (m : Memory) : Bool := Memory.wfFrom size 0 m

/-- A byte string stored from index `i` on, character 0 first (R12, R53). -/
def Memory.storeBytes : Memory → Nat → List Byte → Memory
  | m, _, [] => m
  | m, i, b :: bs => Memory.storeBytes (Memory.write m i b) (i + 1) bs

/-- The first `n` bytes, byte 0 first (R12). -/
def Memory.loadBytes (m : Memory) (n : Nat) : List Byte := (List.range n).map (Memory.read m)

/-- Four bytes as a word, little-endian: `b0`, at the lowest offset, is bits 7:0 (R52). -/
def wordOfBytes (b0 b1 b2 b3 : Byte) : Word := b3 ++ b2 ++ b1 ++ b0

/-- The word at byte index `i` (R52). -/
def Memory.readWord (m : Memory) (i : Nat) : Word :=
  wordOfBytes (Memory.read m i) (Memory.read m (i + 1)) (Memory.read m (i + 2)) (Memory.read m (i + 3))

/-- The four bytes of a word, the byte of bits 7:0 first (R52). -/
def Word.bytes (w : Word) : List Byte :=
  [Sys2Proof.Word.byte w 0, Sys2Proof.Word.byte w 1, Sys2Proof.Word.byte w 2, Sys2Proof.Word.byte w 3]

/-- A word stored at byte index `i` (R52). -/
def Memory.writeWord (m : Memory) (i : Nat) (w : Word) : Memory := Memory.storeBytes m i (Word.bytes w)

/-! The result state of a command (R39, R161). -/

/-- `clear_results()` (R39), the first step of every command: it writes every field of the result state, so it is the one
value that all of it then has. -/
def clearedResults : Results where
  status := { ok := false, na := false, unknown := false, cause := .none, outLen := 0, done := true }
  diagInfo := { triLen := 0, rawCount := 0 }
  out := []
  tout := []

/-- OUT after `clear_results()` with a string written from byte 0 on; every byte past it stays 0x00 (R39, R41). -/
def outOf (b : List Byte) : Memory := Memory.storeBytes clearedResults.out 0 b

/-- TOUT after `clear_results()` with a string written from byte 0 on (R39, R42). -/
def toutOf (t : List Byte) : Memory := Memory.storeBytes clearedResults.tout 0 t

/-- `raise Error(c)` (R15, R161): the command ends with OK = 0 and this cause, the results as `clear_results()` left them. This
is all the exception entry the block has (R165): nothing is saved and no control is transferred. -/
def raiseError (c : Cause) : Results :=
  { clearedResults with status := { clearedResults.status with cause := c } }

/-! What the port answers (R76, R170). -/

/-- An accepted access: RESP OK, and for a read RDATA. -/
def respond (rdata : Option Word) (s : State) : State :=
  { s with response := some { resp := .ok, rdata := rdata } }

/-- A refused access (R51, R163): RESP ERR, a read returns 0, no register changes, and the host's fault is recorded. -/
def refuseAccess (d : Dir) (s : State) : State :=
  { s with
    response := some { resp := .err, rdata := match d with | .read => some 0#32 | .write => none }
    hostFault := true }

/-- A command has run to completion (R24, R56): its results replace the result state as one step and the write that started
it is answered OK. No operand changes (R43). -/
def completeCommand (r : Results) (s : State) : State := respond none { s with results := r }

/-- The operand registers after an accepted write (R55). -/
def storeOperands (o : Operands) (s : State) : State := respond none { s with operands := o }

/-! What the host's inputs do between instructions. -/

/-- The reset input (R180, R181): every register and buffer takes its reset value. The parameter is no state
and stays (R9); the host's record and what it will still do are not the block's and stay (log entries 4 and 5). -/
def applyReset (s : State) : State :=
  { State.reset with lowPairOrder := s.lowPairOrder, hostFault := s.hostFault, inputs := s.inputs }

/-- The machine with the inputs that follow the one now served. -/
def withInputs (rest : List PortInput) (s : State) : State := { s with inputs := rest }

end Sys2Proof.Machine
end

