-- ==== Sys2Proof/Machine/Flags.lean ====
section
/-! DEFINITION. The flag registers as software sees them: cause codes (R160), STATUS (R25) and DIAG_INFO (R38) as words, and the
status of a command that succeeded. -/

namespace Sys2Proof.Machine

/-- The cause codes of R160. -/
def Cause.code : Cause → BitVec 4
  | .none => 0
  | .illegalCmd => 1
  | .groupAbsent => 2
  | .deviceRange => 3
  | .groupShort => 4
  | .bitLenRange => 5
  | .valueTooWide => 6
  | .tinLenRange => 7

/-- STATUS as the host reads it (R25), bit 31 first. -/
def Status.word (r : Status) : Word :=
  0#15 ++ BitVec.ofBool r.done ++ r.outLen ++ r.cause.code ++ 0#1 ++ BitVec.ofBool r.unknown ++ BitVec.ofBool r.na ++
    BitVec.ofBool r.ok

/-- DIAG_INFO as the host reads it (R38), bit 31 first. -/
def DiagInfo.word (r : DiagInfo) : Word := 0#16 ++ r.rawCount ++ r.triLen

/-- The status of a command that produced a result with `outLen` bytes in OUT (R26, R30). -/
def okStatus (outLen : Nat) : Status :=
  { clearedResults.status with ok := true, outLen := BitVec.ofNat 8 outLen }

/-- The status of a command whose tri-state result is the sentinel "not applicable" (R27). -/
def naStatus (outLen : Nat) : Status := { okStatus outLen with na := true }

/-- The status of a DIAG that found value 0 (R28). -/
def unknownStatus : Status := { okStatus 0 with unknown := true }

end Sys2Proof.Machine
end

