-- ==== Sys2Proof/Machine/Operands.lean ====
section
/-! DEFINITION. Characters (R74), the operands of each command (R77 to R79) and what is computed from an operand before any
command does its own work (R14). -/

namespace Sys2Proof.Machine

/-- `'0'` (R74). -/
def char0 : Byte := 0x30#8

/-- `'1'` (R74). -/
def char1 : Byte := 0x31#8

/-- `'F'` (R74). -/
def charF : Byte := 0x46#8

/-- The string terminator (R74). -/
def terminator : Byte := 0x00#8

/-- ENC_CTRL as the host reads it (R32). -/
def EncCtrl.word (r : EncCtrl) : Word := 0#30 ++ BitVec.ofBool r.groupPresent ++ BitVec.ofBool r.turnOn

/-- The fields a written word leaves in ENC_CTRL (R32, R44). -/
def EncCtrl.ofWord (w : Word) : EncCtrl where
  turnOn := w.getLsbD 0
  groupPresent := w.getLsbD 1

/-- ENCODE's `group[0..4]` (R77). -/
def Operands.group (o : Operands) : List Byte :=
  [Sys2Proof.Word.byte o.groupLo 0, Sys2Proof.Word.byte o.groupLo 1, Sys2Proof.Word.byte o.groupLo 2,
    Sys2Proof.Word.byte o.groupLo 3, o.groupHi]

/-- `0 <= device < kMaxSockets` as a signed comparison (R107). -/
def deviceInRange (device : Word) : Bool :=
  !(device.slt 0#32) && device.slt (BitVec.ofNat 32 Config.kMaxSockets)

/-- The input string of TO_TRISTATE, `TIN[0..m-1]` (R79). -/
def Operands.tinString (o : Operands) : List Byte := Memory.loadBytes o.tin o.tinLen.toNat

/-- `sigbits(v)`: the least `k` with `v < 2^k`; 0 for 0, and at most 32 for a 32-bit value (R14). -/
def sigbits (v : Word) : Nat := ((List.range 32).find? fun k => decide (v.toNat < 2 ^ k)).getD 32

end Sys2Proof.Machine
end

