-- ==== Sys2Proof/Machine/CaptureDecoder.lean ====
section
/-! DEFINITION. The capture decoder, TO_BINARY, TO_TRISTATE and DIAG (41_capture_decoder R120 to R136). -/

namespace Sys2Proof.Machine

/-- The `n` low bits of `value` as characters, the most significant first (R121, R122); bits past 31 are 0 (R10). -/
def binaryString (value : Word) (n : Nat) : List Byte :=
  (List.range n).map fun j => if value.getLsbD (n - 1 - j) then char1 else char0

/-- The procedure BINARY of R121, which TO_BINARY and DIAG share: the string, or the cause it raises. -/
def binary (value : Word) (n : Nat) : Except Cause (List Byte) :=
  if n > Config.bitLenMax then .error .bitLenRange
  else if sigbits value > n then .error .valueTooWide
  else .ok (binaryString value n)

/-- The symbol of a pair of binary characters (R75); none for `"10"` and for any byte other than `'0'` and `'1'` (R125). -/
def triSymbol (a b : Byte) : Option Byte :=
  if a = char0 ∧ b = char0 then some char0
  else if a = char1 ∧ b = char1 then some char1
  else if a = char0 ∧ b = char1 then some charF
  else none

/-- `TriMap` (R125): two characters at a time; `none` is the sentinel NA, given by an odd length or any pair without a
symbol, never a partial string (R126). -/
def triMap : List Byte → Option (List Byte)
  | [] => some []
  | [_] => none
  | a :: b :: rest =>
    match triSymbol a b, triMap rest with
    | some t, some ts => some (t :: ts)
    | _, _ => none

/-- The pair of binary characters of a symbol (R75), the encode direction, which no command uses. -/
def symbolPair (t : Byte) : List Byte :=
  if t = char0 then [char0, char0] else if t = char1 then [char1, char1] else [char0, char1]

/-- `T2B` (R129): the pairs of a string over `{0, 1, F}`, concatenated. -/
def triToBinary (t : List Byte) : List Byte := t.flatMap symbolPair

/-- TO_BINARY's results from its operands (R121). -/
def toBinaryResults (o : Operands) : Results :=
  match binary o.value o.bitLen.toNat with
  | .error c => raiseError c
  | .ok b => { clearedResults with out := outOf b, status := okStatus o.bitLen.toNat }

/-- TO_TRISTATE's results from its operands (R127). -/
def toTristateResults (o : Operands) : Results :=
  if o.tinLen.toNat > Config.tinMax then raiseError .tinLenRange
  else
    match triMap o.tinString with
    | none => { clearedResults with status := naStatus 0 }
    | some t =>
      { clearedResults with
        tout := toutOf t
        diagInfo := { triLen := BitVec.ofNat 8 (o.tinLen.toNat / 2), rawCount := 0 }
        status := okStatus 0 }

/-- DIAG's results once the binary string `b` of length `n` is known (R133): it stays in OUT when the tri-state result is the
sentinel (R135). -/
def diagDecoded (n : Nat) (b : List Byte) : Results :=
  match triMap b with
  | none =>
    { clearedResults with
      out := outOf b
      diagInfo := { triLen := 0, rawCount := BitVec.ofNat 8 (2 * n + 1) }
      status := naStatus n }
  | some t =>
    { clearedResults with
      out := outOf b
      tout := toutOf t
      diagInfo := { triLen := BitVec.ofNat 8 (n / 2), rawCount := BitVec.ofNat 8 (2 * n + 1) }
      status := okStatus n }

/-- DIAG's results from its operands (R133): value 0 comes before every check (R134). -/
def diagResults (o : Operands) : Results :=
  if o.value = 0#32 then { clearedResults with status := unknownStatus }
  else
    match binary o.value o.bitLen.toNat with
    | .error c => raiseError c
    | .ok b => diagDecoded o.bitLen.toNat b

/-- TO_BINARY (R121), command word 0x00000002. -/
def execToBinary (s : State) : Host.Outcome State Fault Refusal :=
  .next (completeCommand (toBinaryResults s.operands) s)

/-- TO_TRISTATE (R127), command word 0x00000003. -/
def execToTristate (s : State) : Host.Outcome State Fault Refusal :=
  .next (completeCommand (toTristateResults s.operands) s)

/-- DIAG (R133), command word 0x00000004. -/
def execDiag (s : State) : Host.Outcome State Fault Refusal :=
  .next (completeCommand (diagResults s.operands) s)

end Sys2Proof.Machine
end

