-- ==== Sys2Proof/Machine/Encoder.lean ====
section
/-! DEFINITION. The code word encoder, ENCODE (40_encoder R100 to R110). -/

namespace Sys2Proof.Machine

/-- Positions 5 to 7 (R103). -/
def highField (device : Word) : List Byte :=
  (List.range 3).map fun i => if device = BitVec.ofNat 32 (Config.broadcastDevice - i) then char1 else charF

/-- The device whose `'1'` stands at position `8 + i` (R104): device `i`, or under the FORMULA reading device `1 - i`
(R9, 90_conflicts C1). -/
def lowFieldDevice : LowPairOrder → Nat → Nat
  | .vector, i => i
  | .formula, i => 1 - i

/-- Positions 8 and 9 (R104). -/
def lowField (order : LowPairOrder) (device : Word) : List Byte :=
  (List.range 2).map fun i => if device = BitVec.ofNat 32 (lowFieldDevice order i) then char1 else char0

/-- Positions 10 and 11 (R105). -/
def commandField (turnOn : Bool) : List Byte := if turnOn then [char0, char1] else [char1, char0]

/-- The 12 characters of the code word (R80): the group verbatim (R102), then the three computed fields. -/
def codeWord (order : LowPairOrder) (group : List Byte) (device : Word) (turnOn : Bool) : List Byte :=
  group ++ highField device ++ lowField order device ++ commandField turnOn

/-- ENCODE's results from its operands (R101), the checks in the order of R162. -/
def encodeResults (order : LowPairOrder) (o : Operands) : Results :=
  if o.encCtrl.groupPresent = false then raiseError .groupAbsent
  else if deviceInRange o.device = false then raiseError .deviceRange
  else if terminator ∈ o.group then raiseError .groupShort
  else
    { clearedResults with
      out := outOf (codeWord order o.group o.device o.encCtrl.turnOn)
      status := okStatus Config.codeLen }

/-- ENCODE (R101), command word 0x00000001, under the machine's `LOW_PAIR_ORDER` (R9). -/
def execEncode (s : State) : Host.Outcome State Fault Refusal :=
  .next (completeCommand (encodeResults s.lowPairOrder s.operands) s)

end Sys2Proof.Machine
end

