-- ==== Sys2Proof/Machine/RegisterMap.lean ====
section
/-! DEFINITION. The register space (10_state R23, 20_memory R50 to R58): what stands at each offset, what a read returns, what a
write stores, and where the space lies in the host's addresses. -/

namespace Sys2Proof.Machine

/-- The words of the register space (R23); a buffer word carries its byte index, a reserved word its offset. -/
inductive Location where
  | cmd
  | status
  | encCtrl
  | device
  | groupLo
  | groupHi
  | value
  | bitLen
  | tinLen
  | diagInfo
  | tin (i : Nat)
  | out (i : Nat)
  | tout (i : Nat)
  | reserved (off : Offset)
deriving DecidableEq, Repr

/-- The registers of R23 below TIN, and the reserved offsets after them. -/
def locateRegister (off : Offset) : Location :=
  match off.toNat with
  | 0x00 => .cmd
  | 0x04 => .status
  | 0x08 => .encCtrl
  | 0x0C => .device
  | 0x10 => .groupLo
  | 0x14 => .groupHi
  | 0x18 => .value
  | 0x1C => .bitLen
  | 0x20 => .tinLen
  | 0x24 => .diagInfo
  | _ => .reserved off

/-- The address map of R23, for the aligned offsets an accepted access has. -/
def locate (off : Offset) : Location :=
  if off.toNat < 0x40 then locateRegister off
  else if off.toNat < 0x80 then .tin (off.toNat - 0x40)
  else if off.toNat < 0xC0 then .out (off.toNat - 0x80)
  else if off.toNat < 0xE0 then .tout (off.toNat - 0xC0)
  else .reserved off

/-- What a read returns (R23 to R44): CMD, the reserved bits and the reserved offsets read 0. -/
def readLocation (s : State) : Location → Word
  | .cmd => 0#32
  | .status => s.results.status.word
  | .encCtrl => s.operands.encCtrl.word
  | .device => s.operands.device
  | .groupLo => s.operands.groupLo
  | .groupHi => s.operands.groupHi.setWidth 32
  | .value => s.operands.value
  | .bitLen => s.operands.bitLen
  | .tinLen => s.operands.tinLen.setWidth 32
  | .diagInfo => s.results.diagInfo.word
  | .tin i => Memory.readWord s.operands.tin i
  | .out i => Memory.readWord s.results.out i
  | .tout i => Memory.readWord s.results.tout i
  | .reserved _ => 0#32

/-- The word at an aligned offset, `MemRead(off, 4)` (R15, R50). -/
def readWord (s : State) (off : Offset) : Word := readLocation s (locate off)

/-- The byte at any offset of the register space, by the packing of R52. -/
def readByte (s : State) (off : Offset) : Byte :=
  Sys2Proof.Word.byte (readWord s (off &&& 0xFC#8)) (off.toNat % 4)

/-- What a write stores (R32 to R44): the implemented bits of an operand register or a word of TIN; read-only registers and
buffers, reserved bits and reserved offsets ignore it. CMD stores nothing (R24). -/
def writeLocation (w : Word) (o : Operands) : Location → Operands
  | .cmd => o
  | .status => o
  | .encCtrl => { o with encCtrl := EncCtrl.ofWord w }
  | .device => { o with device := w }
  | .groupLo => { o with groupLo := w }
  | .groupHi => { o with groupHi := w.setWidth 8 }
  | .value => { o with value := w }
  | .bitLen => { o with bitLen := w }
  | .tinLen => { o with tinLen := w.setWidth 8 }
  | .diagInfo => o
  | .tin i => { o with tin := Memory.writeWord o.tin i w }
  | .out _ => o
  | .tout _ => o
  | .reserved _ => o

/-- The host address of an offset (R50, R58). -/
def hostAddress (off : Offset) : Nat := Config.tscwBase + off.toNat

/-- The offset of a host address, none outside the register space (R23, R58). -/
def offsetOfHostAddress (a : Nat) : Option Offset :=
  if Config.tscwBase ≤ a ∧ a < Config.tscwBase + Config.regSpace then some (BitVec.ofNat 8 (a - Config.tscwBase)) else none

end Sys2Proof.Machine
end

