-- ==== Sys2Proof/Machine/Port.lean ====
section
/-! DEFINITION. The port: a write and a read of one word (20_memory R50 to R57), the command a write to CMD runs (R24, R72), and
what the port does with each of the host's inputs. -/

namespace Sys2Proof.Machine

/-- The results of a command from the operands alone (R161, R195), under a `LOW_PAIR_ORDER` (R9). ILLEGAL is `clear_results()` and then cause 1 (R72). -/
def commandResults (order : LowPairOrder) (c : Command) (o : Operands) : Results :=
  match c with
  | .encode => encodeResults order o
  | .toBinary => toBinaryResults o
  | .toTristate => toTristateResults o
  | .diag => diagResults o
  | .illegal => raiseError .illegalCmd

/-- An accepted write: at CMD it runs the command its word selects (R24), elsewhere it stores the word (R55). -/
def writeWord (off : Offset) (data : Word) (s : State) : State :=
  if off = 0x00#8 then completeCommand (commandResults s.lowPairOrder (decodeCommand data) s.operands) s
  else storeOperands (writeLocation data s.operands (locate off)) s

/-- WR32 (R24, R55, R57); a misaligned offset is refused (R51). -/
def execWr32 (off : Offset) (data : Word) (s : State) : Host.Outcome State Fault Refusal :=
  if wordAligned off then .next (writeWord off data s) else .next (refuseAccess .write s)

/-- RD32 (R55, R57): the word as it stands, and nothing else changes (R44); a misaligned offset is refused (R51). -/
def execRd32 (off : Offset) (s : State) : Host.Outcome State Fault Refusal :=
  if wordAligned off then .next (respond (some (readWord s off)) s) else .next (refuseAccess .read s)

/-- The block with no input to serve holds its state (R57: only accesses change it; log entry 2). -/
def idle (s : State) : Host.Outcome State Fault Refusal := .next s

/-- The reset input served (R180). -/
def serveReset (s : State) : Host.Outcome State Fault Refusal := .next (applyReset s)

/-- An access the decoder refuses (R51). -/
def serveRefused (t : Txn) (s : State) : Host.Outcome State Fault Refusal := .next (refuseAccess (txnDir t) s)

/-- The input that brings a word of an opcode-table row to the port as an ordinary 32-bit access. -/
def tableInput (nbits w : Nat) : PortInput := .access .w32 (tableTxn nbits w)

end Sys2Proof.Machine
end

