-- ==== Sys2Proof/Machine/Dispatch.lean ====
section
/-! DEFINITION. One arm per row of the opcode table. -/

namespace Sys2Proof.Machine

def exec (i : Instr) (s : State) : Host.Outcome State Fault Refusal :=
  match i with
  | .encode => Sys2Proof.Machine.execEncode s
  | .toBinary => Sys2Proof.Machine.execToBinary s
  | .toTristate => Sys2Proof.Machine.execToTristate s
  | .diag => Sys2Proof.Machine.execDiag s
  | .wr32 off data => Sys2Proof.Machine.execWr32 off data s
  | .rd32 off => Sys2Proof.Machine.execRd32 off s

end Sys2Proof.Machine
end

