-- ==== Sys2Proof/Machine/Step.lean ====
section
/-! DEFINITION. One step: the oldest of the host's inputs is served whole (20_memory R55, R56, R60; 60_exceptions R170). -/

namespace Sys2Proof.Machine

def step (s : State) : Host.Outcome State Fault Refusal :=
  match s.inputs with
  | [] => idle s
  | .reset :: rest => serveReset (withInputs rest s)
  | .resetDuring _ _ :: _ => .fault .resetDuringTransaction
  | .access width t :: rest =>
    match decodeAccess width t with
    | .ok i => exec i (withInputs rest s)
    | .error _ => serveRefused t (withInputs rest s)

/-- The state with one more input, the next to be served: a 32-bit access that carries the row's word (log entry 1). -/
def State.withFetchWord (s : State) (nbits w : Nat) : State :=
  withInputs (tableInput nbits w :: s.inputs) s

end Sys2Proof.Machine
end

