-- ==== Sys2Proof/Machine/HostNotation.lean ====
section
/-! DEFINITION. The host's notation (30_encoding R83, R84): lines, pseudo-instructions, their expansions, and a sequence of
lines performed in order (20_memory R60). Notation only: the block sees transactions. -/

namespace Sys2Proof.Machine

/-- The offset of a register name or buffer word (R23, R83). A buffer word past the register space wraps to 8 bits (log
entry 11). -/
def offsetOf : Location → Offset
  | .cmd => 0x00#8
  | .status => 0x04#8
  | .encCtrl => 0x08#8
  | .device => 0x0C#8
  | .groupLo => 0x10#8
  | .groupHi => 0x14#8
  | .value => 0x18#8
  | .bitLen => 0x1C#8
  | .tinLen => 0x20#8
  | .diagInfo => 0x24#8
  | .tin i => BitVec.ofNat 8 (0x40 + i)
  | .out i => BitVec.ofNat 8 (0x80 + i)
  | .tout i => BitVec.ofNat 8 (0xC0 + i)
  | .reserved off => off

/-- One line of host assembly (R83). -/
inductive HostLine where
  | rd (reg : Location)
  | wr (reg : Location) (imm : Word)
deriving DecidableEq, Repr

/-- The access of a line (R83). -/
def lineInstr : HostLine → Instr
  | .rd r => .rd32 (offsetOf r)
  | .wr r imm => .wr32 (offsetOf r) imm

/-- The pseudo-instructions of R84. -/
inductive Pseudo where
  | encode
  | toBinary
  | toTristate
  | diag
  | setGroup (c0 c1 c2 c3 c4 : Byte)
  | setEnc (on present : Bool)
  | ldTin (s : List Byte)
  | rdOut (n : Nat)
  | rdTout (n : Nat)
deriving DecidableEq, Repr

/-- Characters `k` to `k + 3` of a string as a word, characters past the end taken as 0x00 (R84). -/
def stringWord (s : List Byte) (k : Nat) : Word :=
  wordOfBytes (s.getD k 0#8) (s.getD (k + 1) 0#8) (s.getD (k + 2) 0#8) (s.getD (k + 3) 0#8)

/-- `0, 4, 8, ...` below `n` (R84). -/
def wordSteps (n : Nat) : List Nat := (List.range ((n + 3) / 4)).map (4 * ·)

/-- The expansions of R84. -/
def expand : Pseudo → List HostLine
  | .encode => [.wr .cmd 0x00000001#32]
  | .toBinary => [.wr .cmd 0x00000002#32]
  | .toTristate => [.wr .cmd 0x00000003#32]
  | .diag => [.wr .cmd 0x00000004#32]
  | .setGroup c0 c1 c2 c3 c4 => [.wr .groupLo (wordOfBytes c0 c1 c2 c3), .wr .groupHi (c4.setWidth 32)]
  | .setEnc on present => [.wr .encCtrl (0#30 ++ BitVec.ofBool present ++ BitVec.ofBool on)]
  | .ldTin s => .wr .tinLen (BitVec.ofNat 32 s.length) :: (wordSteps s.length).map fun k => .wr (.tin k) (stringWord s k)
  | .rdOut n => (wordSteps n).map fun k => .rd (.out k)
  | .rdTout n => (wordSteps n).map fun k => .rd (.tout k)

/-- Lines performed one at a time, each seeing every earlier one (R60). -/
def runLines : List HostLine → State → Host.Outcome State Fault Refusal
  | [], s => .next s
  | l :: ls, s =>
    match exec (lineInstr l) s with
    | .next t => runLines ls t
    | .fault r => .fault r
    | .refused r => .refused r

/-- The check of a group at initialisation (R186): load it with DEVICE 0 and GROUP_PRESENT 1, and run one ENCODE. TURNON is the
host's wish (R185), so it is an argument; the order of the four writes is the model's choice, R185 leaving it free (log entry
11). -/
def groupCheck (on : Bool) (c0 c1 c2 c3 c4 : Byte) : List HostLine :=
  expand (.setGroup c0 c1 c2 c3 c4) ++ expand (.setEnc on true) ++ [.wr .device 0#32] ++ expand .encode

end Sys2Proof.Machine
end

