-- ==== Sys2Proof/Machine/HostReport.lean ====
section
/-! DEFINITION. The host side of the composed diagnostic (41_capture_decoder R140 to R143): which fields a report holds and in
which order, and when the host may transmit (60_exceptions R171). The text of a report is out of the spec's scope (R6). -/

namespace Sys2Proof.Machine

/-- What the host keeps of a capture: none of it has a register in the block (R140). -/
structure CapturedSample where
  interPulseDelay : Nat
  rawPulses : List Nat
  protocolId : Nat
deriving DecidableEq, Repr

/-- The fields of a report (R142). -/
inductive ReportField where
  | decimalValue (v : Nat)
  | bitCount (n : Nat)
  | binary (s : List Byte)
  | triState (s : List Byte)
  | notApplicable
  | pulseLength (micros : Nat)
  | protocolId (p : Nat)
  | rawPulses (samples : List Nat)
  | unknownEncoding
deriving DecidableEq, Repr

/-- The tri-state field: the string in TOUT, or "not applicable" when NA = 1 (R142). -/
def triStateField (r : Results) : ReportField :=
  if r.status.na then .notApplicable else .triState (Memory.loadBytes r.tout r.diagInfo.triLen.toNat)

/-- The report after a DIAG, its fields in the order of R142: the pulse length is the sample's inter-pulse delay (R143), and
the raw samples are the first RAW_COUNT, never past the array's end (R141). None after a failing
command, and for value 0 the one text with no raw samples: both the model's choice (log entry 11). -/
def report (c : CapturedSample) (s : State) : Option (List ReportField) :=
  if s.results.status.ok = false then none
  else if s.results.status.unknown then some [.unknownEncoding]
  else
    some
      [.decimalValue s.operands.value.toNat, .bitCount s.operands.bitLen.toNat,
        .binary (Memory.loadBytes s.results.out s.results.status.outLen.toNat), triStateField s.results,
        .pulseLength c.interPulseDelay, .protocolId c.protocolId,
        .rawPulses (c.rawPulses.take s.results.diagInfo.rawCount.toNat)]

/-- What a host may hand to the transmitter after an ENCODE: the code word, only when OK = 1 (R171). -/
def transmittable (s : State) : Option (List Byte) :=
  if s.results.status.ok then some (Memory.loadBytes s.results.out s.results.status.outLen.toNat) else none

end Sys2Proof.Machine
end

