-- ==== Sys2Proof/Safety.lean ====
section
/-! DEFINITION. What claims are stated in: the invariants of the block (10_state R45), a host program without a port error
(20_memory R51), and what it means that two states look the same. -/

namespace Sys2Proof.Safety
open Sys2Proof.Machine

/-- "no port error", the premise of a claim about a host program (R51). -/
def NoPortError (s : State) : Prop := s.hostFault = false

/-- Every buffer is inside its size (R40 to R42) and in its canonical form, which is the model's choice (log entry 10). -/
def BuffersCanonical (s : State) : Prop :=
  Memory.wf Config.tinMax s.operands.tin = true ∧ Memory.wf Config.outSize s.results.out = true ∧
    Memory.wf Config.toutSize s.results.tout = true

/-- The relations between result fields that R45 lists (a) to (e), and the state before any command (R29, R31). -/
structure StatusLaws (r : Results) : Prop where
  okNoCause : r.status.ok = true → r.status.cause = .none
  failedHasCause : r.status.done = true → r.status.ok = false → r.status.cause ≠ .none
  sentinelIsOk : r.status.na = true ∨ r.status.unknown = true → r.status.ok = true
  sentinelsApart : ¬(r.status.na = true ∧ r.status.unknown = true)
  outPadded : ∀ i, r.status.outLen.toNat ≤ i → Memory.read r.out i = 0#8
  toutPadded : ∀ i, r.diagInfo.triLen.toNat ≤ i → Memory.read r.tout i = 0#8
  naNoTriState : r.status.na = true → r.diagInfo.triLen = 0#8
  notRunIsReset : r.status.done = false → r = Results.reset

/-- The lengths stay in the ranges of R30 and R38. -/
def LengthsInRange (r : Results) : Prop :=
  r.status.outLen.toNat ≤ Config.outSize ∧ r.diagInfo.triLen.toNat ≤ Config.toutSize ∧ r.diagInfo.rawCount.toNat ≤ 129

/-- Two states the host cannot tell apart by reading (R23, R173). -/
def SameReads (s t : State) : Prop := ∀ off, readWord t off = readWord s off

/-- The instructions that run a command: the four of R71, and a write of an illegal word to CMD (R72). -/
def runsCommand : Instr → Bool
  | .encode => true
  | .toBinary => true
  | .toTristate => true
  | .diag => true
  | .wr32 off _ => off == 0x00#8
  | .rd32 _ => false

/-- A read at `off` is accepted and returns `w` (R24 to R44, R76). -/
def ReadsAs (s : State) (off : Offset) (w : Word) : Prop :=
  ∃ t, exec (.rd32 off) s = .next t ∧ t.response = some { resp := .ok, rdata := some w }

/-- Character `k` of the group as R34 and R77 place it. -/
def groupChar (o : Operands) (k : Nat) : Byte := if k < 4 then o.groupLo.extractLsb' (8 * k) 8 else o.groupHi

/-- The bytes of a buffer are all 0x00. -/
def Blank (m : Memory) : Prop := ∀ i, Memory.read m i = 0#8

/-- The results of a failed command (R161): `clear_results()` and the cause, DONE set. -/
def FailedWith (c : Cause) (r : Results) : Prop :=
  r.status = { ok := false, na := false, unknown := false, cause := c, outLen := 0, done := true } ∧
    r.diagInfo = { triLen := 0, rawCount := 0 } ∧ Blank r.out ∧ Blank r.tout

/-- The number a string over `{'0', '1'}` writes, character 0 the most significant (R53, R81). -/
def binaryValue (b : List Byte) : Nat := b.foldl (fun a c => 2 * a + if c = char1 then 1 else 0) 0

/-- A pair of characters that R75 gives a symbol. -/
def ValidPair (a b : Byte) : Prop :=
  (a = 0x30#8 ∧ b = 0x30#8) ∨ (a = 0x31#8 ∧ b = 0x31#8) ∨ (a = 0x30#8 ∧ b = 0x31#8)

/-- The symbol R75 gives a valid pair: `"00"` is `'0'`, `"11"` is `'1'`, `"01"` is `'F'`. -/
def pairSymbol (a b : Byte) : Byte := if a = b then a else 0x46#8

end Sys2Proof.Safety
end

