-- ==== Sys2Proof/Certificates/Slice0/Obligations.lean ====
section
/-! DEFINITION. The statements for the provers, each with the rule of the spec it formalises. Character codes, register
offsets, status words and bit positions are written out as the spec gives them, not through the model's names. -/

open Sys2Proof Sys2Proof.Machine Sys2Proof.Safety

/-! Reset -/

/-- R46: after reset every register reads 0x00000000 and every byte of TIN, OUT and TOUT is 0x00. -/
def Obligations.ResetStateReadsZero : Prop :=
  (∀ off, readWord State.reset off = 0#32) ∧ Blank State.reset.operands.tin ∧ Blank State.reset.results.out ∧
    Blank State.reset.results.tout

/-- R180, R181: the reset input, between transactions, brings every operand and every result back to its reset value.
The parameter of R9 stays. The model's choices: the host's fault record and its remaining inputs stay (log entries 4 and 5). -/
def Obligations.ResetInputRestoresResetState : Prop :=
  ∀ (s : State) (rest : List PortInput), s.inputs = .reset :: rest →
    ∃ t, step s = .next t ∧ t.operands = State.reset.operands ∧ t.results = State.reset.results ∧
      (∀ off, readWord t off = 0#32) ∧ t.lowPairOrder = s.lowPairOrder ∧ t.hostFault = s.hostFault ∧ t.inputs = rest

/-- R183: what the four commands do with the reset operands. -/
def Obligations.CommandsAfterReset : Prop :=
  (∃ t, exec .encode State.reset = .next t ∧ FailedWith .groupAbsent t.results ∧ readWord t 0x04#8 = 0x00010020#32) ∧
    (∃ t, exec .toBinary State.reset = .next t ∧ readWord t 0x04#8 = 0x00010001#32 ∧ Blank t.results.out) ∧
    (∃ t, exec .toTristate State.reset = .next t ∧ readWord t 0x04#8 = 0x00010001#32 ∧ readWord t 0x24#8 = 0#32 ∧
      Blank t.results.tout) ∧
    (∃ t, exec .diag State.reset = .next t ∧ readWord t 0x04#8 = 0x00010005#32)

/-! Reads -/

/-- R23 with R24, R32 to R38, R40 to R42, R44: what a read returns at every offset but STATUS. -/
def Obligations.RegisterMapReads : Prop :=
  ∀ s : State,
    ReadsAs s 0x00#8 0#32 ∧
    (∃ w, ReadsAs s 0x08#8 w ∧ w.getLsbD 0 = s.operands.encCtrl.turnOn ∧
      w.getLsbD 1 = s.operands.encCtrl.groupPresent ∧ w.extractLsb' 2 30 = 0#30) ∧
    ReadsAs s 0x0C#8 s.operands.device ∧
    ReadsAs s 0x10#8 s.operands.groupLo ∧
    (∃ w, ReadsAs s 0x14#8 w ∧ w.extractLsb' 0 8 = s.operands.groupHi ∧ w.extractLsb' 8 24 = 0#24) ∧
    ReadsAs s 0x18#8 s.operands.value ∧
    ReadsAs s 0x1C#8 s.operands.bitLen ∧
    (∃ w, ReadsAs s 0x20#8 w ∧ w.extractLsb' 0 8 = s.operands.tinLen ∧ w.extractLsb' 8 24 = 0#24) ∧
    (∃ w, ReadsAs s 0x24#8 w ∧ w.extractLsb' 0 8 = s.results.diagInfo.triLen ∧
      w.extractLsb' 8 8 = s.results.diagInfo.rawCount ∧ w.extractLsb' 16 16 = 0#16) ∧
    (∀ k < 16, ∃ w, ReadsAs s (BitVec.ofNat 8 (0x40 + 4 * k)) w ∧
      ∀ j < 4, w.extractLsb' (8 * j) 8 = Memory.read s.operands.tin (4 * k + j)) ∧
    (∀ k < 16, ∃ w, ReadsAs s (BitVec.ofNat 8 (0x80 + 4 * k)) w ∧
      ∀ j < 4, w.extractLsb' (8 * j) 8 = Memory.read s.results.out (4 * k + j)) ∧
    (∀ k < 8, ∃ w, ReadsAs s (BitVec.ofNat 8 (0xC0 + 4 * k)) w ∧
      ∀ j < 4, w.extractLsb' (8 * j) 8 = Memory.read s.results.tout (4 * k + j)) ∧
    (∀ off : Offset, wordAligned off = true → (0x28 ≤ off.toNat ∧ off.toNat < 0x40) ∨ 0xE0 ≤ off.toNat →
      ReadsAs s off 0#32)

/-- R25 (the fields of STATUS) with the codes of R160. -/
def Obligations.StatusWordLayout : Prop :=
  ∀ s : State, ∃ w, ReadsAs s 0x04#8 w ∧
    w.getLsbD 0 = s.results.status.ok ∧ w.getLsbD 1 = s.results.status.na ∧
    w.getLsbD 2 = s.results.status.unknown ∧ w.getLsbD 3 = false ∧
    (w.extractLsb' 4 4).toNat =
      (match s.results.status.cause with
        | .none => 0 | .illegalCmd => 1 | .groupAbsent => 2 | .deviceRange => 3
        | .groupShort => 4 | .bitLenRange => 5 | .valueTooWide => 6 | .tinLenRange => 7) ∧
    w.extractLsb' 8 8 = s.results.status.outLen ∧ w.getLsbD 16 = s.results.status.done ∧ w.extractLsb' 17 15 = 0#15

/-- R57, R44: an accepted read answers OK with the word as it stands and changes nothing else of the machine. -/
def Obligations.ReadChangesNothingElse : Prop :=
  ∀ (s : State) (off : Offset), wordAligned off = true →
    ∃ t, exec (.rd32 off) s = .next t ∧ t.response = some { resp := .ok, rdata := some (readWord s off) } ∧
      t.operands = s.operands ∧ t.results = s.results ∧ t.lowPairOrder = s.lowPairOrder ∧ t.hostFault = s.hostFault ∧
      t.inputs = s.inputs ∧ ∀ off', readWord t off' = readWord s off'

/-- R52: the byte at offset `o` is bits `[8*(o mod 4)+7 : 8*(o mod 4)]` of the word at `o - (o mod 4)`, for TIN, OUT, TOUT
and the group characters, with the rule's example. -/
def Obligations.LittleEndianPacking : Prop :=
  ∀ s : State,
    (∀ i < 64, Memory.read s.operands.tin i =
      (readWord s (BitVec.ofNat 8 (0x40 + i - (0x40 + i) % 4))).extractLsb' (8 * ((0x40 + i) % 4)) 8) ∧
    (∀ i < 64, Memory.read s.results.out i =
      (readWord s (BitVec.ofNat 8 (0x80 + i - (0x80 + i) % 4))).extractLsb' (8 * ((0x80 + i) % 4)) 8) ∧
    (∀ i < 32, Memory.read s.results.tout i =
      (readWord s (BitVec.ofNat 8 (0xC0 + i - (0xC0 + i) % 4))).extractLsb' (8 * ((0xC0 + i) % 4)) 8) ∧
    (∀ k < 4, s.operands.group.getD k 0#8 = (readWord s 0x10#8).extractLsb' (8 * k) 8) ∧
    s.operands.group.getD 4 0#8 = (readWord s 0x14#8).extractLsb' 0 8 ∧
    (Memory.read s.results.out 0 = 0x41#8 → Memory.read s.results.out 1 = 0x42#8 →
      Memory.read s.results.out 2 = 0x43#8 → Memory.read s.results.out 3 = 0x44#8 →
      readWord s 0x80#8 = 0x44434241#32)

/-! Writes -/

/-- R32 to R37 and R40: a written operand reads back, less its reserved bits. The premise BuffersCanonical is about the model's
form of a buffer (log entry 10). -/
def Obligations.OperandWriteReadsBack : Prop :=
  ∀ (s : State) (data : Word),
    (∀ p ∈ [(0x08#8, 0x00000003#32), (0x0C#8, 0xFFFFFFFF#32), (0x10#8, 0xFFFFFFFF#32), (0x14#8, 0x000000FF#32),
        (0x18#8, 0xFFFFFFFF#32), (0x1C#8, 0xFFFFFFFF#32), (0x20#8, 0x000000FF#32)],
      ∃ t, exec (.wr32 p.1 data) s = .next t ∧ t.response = some { resp := .ok, rdata := none } ∧
        ReadsAs t p.1 (data &&& p.2)) ∧
    (BuffersCanonical s → ∀ k < 16,
      ∃ t, exec (.wr32 (BitVec.ofNat 8 (0x40 + 4 * k)) data) s = .next t ∧
        t.response = some { resp := .ok, rdata := none } ∧ ReadsAs t (BitVec.ofNat 8 (0x40 + 4 * k)) data)

/-- R55, R57: an accepted write anywhere but at CMD is answered OK, leaves every result as it was, and leaves every other
word of the register space as it was. -/
def Obligations.WriteFrame : Prop :=
  ∀ (s : State) (off : Offset) (data : Word), wordAligned off = true → off ≠ 0x00#8 →
    ∃ t, exec (.wr32 off data) s = .next t ∧ t.response = some { resp := .ok, rdata := none } ∧
      t.results = s.results ∧ t.lowPairOrder = s.lowPairOrder ∧ t.hostFault = s.hostFault ∧ t.inputs = s.inputs ∧
      ∀ off', wordAligned off' = true → off' ≠ off → readWord t off' = readWord s off'

/-- R40, R52, R55: byte by byte, a write changes TIN exactly at the four bytes of the word its offset names; a write that names
no TIN word leaves every byte of TIN; OUT and TOUT never change. The premise BuffersCanonical is about the model's form of a
buffer (log entry 10). -/
def Obligations.WriteTinBytes : Prop :=
  ∀ (s : State) (off : Offset) (data : Word), wordAligned off = true → off ≠ 0x00#8 →
    ∃ t, exec (.wr32 off data) s = .next t ∧
      (∀ i, locate off = .tin i →
        (∀ j, j < i ∨ i + 4 ≤ j → Memory.read t.operands.tin j = Memory.read s.operands.tin j) ∧
        (BuffersCanonical s → ∀ j < 4, Memory.read t.operands.tin (i + j) = data.extractLsb' (8 * j) 8) ∧
        t.operands = { s.operands with tin := t.operands.tin }) ∧
      ((∀ i, locate off ≠ .tin i) → ∀ j, Memory.read t.operands.tin j = Memory.read s.operands.tin j) ∧
      (∀ j, Memory.read t.results.out j = Memory.read s.results.out j) ∧
      (∀ j, Memory.read t.results.tout j = Memory.read s.results.tout j)

/-- R44, whole: reserved fields and reserved offsets read as 0 and ignore writes; writes to STATUS, DIAG_INFO, OUT and TOUT
leave the state unchanged; a read never changes state. -/
def Obligations.ReservedAndReadOnly : Prop :=
  ∀ s : State,
    (∀ off : Offset, wordAligned off = true → (0x28 ≤ off.toNat ∧ off.toNat < 0x40) ∨ 0xE0 ≤ off.toNat →
      readWord s off = 0#32) ∧
    (readWord s 0x04#8 &&& 0xFFFE0008#32 = 0#32 ∧ readWord s 0x08#8 &&& 0xFFFFFFFC#32 = 0#32 ∧
      readWord s 0x14#8 &&& 0xFFFFFF00#32 = 0#32 ∧ readWord s 0x20#8 &&& 0xFFFFFF00#32 = 0#32 ∧
      readWord s 0x24#8 &&& 0xFFFF0000#32 = 0#32) ∧
    (∀ p ∈ [(0x08#8, 0x00000003#32), (0x14#8, 0x000000FF#32), (0x20#8, 0x000000FF#32)],
      ∀ data data' : Word, data &&& p.2 = data' &&& p.2 → exec (.wr32 p.1 data) s = exec (.wr32 p.1 data') s) ∧
    (∀ (off : Offset) (data : Word), wordAligned off = true →
      off = 0x04#8 ∨ off = 0x24#8 ∨ (0x28 ≤ off.toNat ∧ off.toNat < 0x40) ∨ 0x80 ≤ off.toNat →
      ∃ t, exec (.wr32 off data) s = .next t ∧ t.operands = s.operands ∧ t.results = s.results) ∧
    (∀ off : Offset, ∃ t, exec (.rd32 off) s = .next t ∧ t.operands = s.operands ∧ t.results = s.results)

/-- R51: the port accepts only aligned 32-bit accesses; any other gets ERR, changes no register, runs no command, a read
returns 0, and the host's fault is recorded and never cleared. -/
def Obligations.PortAcceptsOnlyAlignedWords : Prop :=
  (∀ (s : State) (width : Width) (x : Txn) (rest : List PortInput), s.inputs = .access width x :: rest →
    ∃ t, step s = .next t ∧ t.inputs = rest ∧
      if width = .w32 ∧ x.getLsbD 32 = false ∧ x.getLsbD 33 = false then
        (∃ d, t.response = some { resp := .ok, rdata := d }) ∧ t.hostFault = s.hostFault
      else
        t.response = some { resp := .err, rdata := if x.getLsbD 40 then none else some 0#32 } ∧
          t.operands = s.operands ∧ t.results = s.results ∧ t.hostFault = true) ∧
  (∀ s t : State, step s = .next t → s.hostFault = true → t.hostFault = true)

/-- R51, R163, at the instruction: a misaligned WR32 or RD32 is answered ERR, changes no register and no STATUS, and runs no
command, whatever word it writes. -/
def Obligations.MisalignedInstructionRefused : Prop :=
  ∀ (s : State) (off : Offset) (data : Word), off.toNat % 4 ≠ 0 →
    (∃ t, exec (.wr32 off data) s = .next t ∧ t.response = some { resp := .err, rdata := none } ∧
      t.operands = s.operands ∧ t.results = s.results ∧ t.hostFault = true) ∧
    (∃ t, exec (.rd32 off) s = .next t ∧ t.response = some { resp := .err, rdata := some 0#32 } ∧
      t.operands = s.operands ∧ t.results = s.results ∧ t.hostFault = true)

/-! Encodings and the step -/

/-- R73 with R71: every word selects exactly one of the five, by comparing the whole word. -/
def Obligations.CommandWordsDecodeWhole : Prop :=
  ∀ w : Word,
    (decodeCommand w = .encode ↔ w = 0x00000001#32) ∧ (decodeCommand w = .toBinary ↔ w = 0x00000002#32) ∧
    (decodeCommand w = .toTristate ↔ w = 0x00000003#32) ∧ (decodeCommand w = .diag ↔ w = 0x00000004#32) ∧
    (decodeCommand w = .illegal ↔
      w ≠ 0x00000001#32 ∧ w ≠ 0x00000002#32 ∧ w ≠ 0x00000003#32 ∧ w ≠ 0x00000004#32)

/-- Decode of encode is the instruction, for every well-formed instruction with every operand (R71, R76). That a plain write of
a legal command word to CMD is not well formed, being the command itself, is deduced (log entry 6). -/
def Obligations.DecodeOfEncode : Prop :=
  ∀ i : Instr, i.wellFormed = true → decodeAccess .w32 (encodeTxn i) = .ok i

/-- What the decoder accepts is a 32-bit access, well formed, and carries the bits the encoder gives the instruction; of a
read every bit but DATA, which the port ignores (R51, R76; that a read's DATA is ignored is deduced, log entry 7). -/
def Obligations.DecodeAcceptsOnlyEncodings : Prop :=
  ∀ (width : Width) (x : Txn) (i : Instr), decodeAccess width x = .ok i →
    width = .w32 ∧ i.wellFormed = true ∧
      (if x.getLsbD 40 then encodeTxn i = x else encodeTxn i = x &&& 0x0FF00000000#41)

/-- R24, R71, R84: a write of a command word to CMD is that command. -/
def Obligations.CommandWriteIsTheCommand : Prop :=
  ∀ s : State,
    exec (.wr32 0x00#8 0x00000001#32) s = exec .encode s ∧ exec (.wr32 0x00#8 0x00000002#32) s = exec .toBinary s ∧
    exec (.wr32 0x00#8 0x00000003#32) s = exec .toTristate s ∧ exec (.wr32 0x00#8 0x00000004#32) s = exec .diag s

/-- Words written out from R70, R71, R76 and the opcode table decode to the instructions they stand for. -/
def Obligations.SampleWordsDecode : Prop :=
  decodeAccess .w32 0x10000000001#41 = .ok .encode ∧ decodeAccess .w32 0x10000000002#41 = .ok .toBinary ∧
  decodeAccess .w32 0x10000000003#41 = .ok .toTristate ∧ decodeAccess .w32 0x10000000004#41 = .ok .diag ∧
  decodeAccess .w32 0x11044434241#41 = .ok (.wr32 0x10#8 0x44434241#32) ∧
  decodeAccess .w32 0x10000000000#41 = .ok (.wr32 0x00#8 0#32) ∧
  decodeAccess .w32 0x00400000000#41 = .ok (.rd32 0x04#8) ∧
  decodeAccess .w32 0x10200000001#41 = .error .misaligned ∧
  decodeAccess .w16 0x10000000001#41 = .error .wrongWidth

/-- A step at an access that decodes to `i` is `exec i`, the access taken from the inputs and nothing else changed first
(R56, R60). -/
def Obligations.StepRunsDecodedInstruction : Prop :=
  ∀ (s : State) (width : Width) (x : Txn) (rest : List PortInput) (i : Instr),
    s.inputs = .access width x :: rest → decodeAccess width x = .ok i → step s = exec i { s with inputs := rest }

/-- Every step answers a next state, but for a reset during a transaction, which R170 assumes never. The model's choices: that
one stops (log entry 5), and with no input the block holds its state (log entry 2). -/
def Obligations.EveryStepAnswers : Prop :=
  ∀ s : State,
    ((∃ t, step s = .next t) ↔ ∀ width x rest, s.inputs ≠ .resetDuring width x :: rest) ∧
    (∀ width x rest, s.inputs = .resetDuring width x :: rest → step s = .fault .resetDuringTransaction) ∧
    (s.inputs = [] → step s = .next s)

/-- Every instruction answers a next state, from every state and with any operands, takes no input of its own, leaves
the parameter (R9) and clears no host fault (R51, R56, R161). -/
def Obligations.EveryInstructionAnswers : Prop :=
  ∀ (i : Instr) (s : State), ∃ t, exec i s = .next t ∧ t.inputs = s.inputs ∧
    t.lowPairOrder = s.lowPairOrder ∧ (s.hostFault = true → t.hostFault = true) ∧ t.response ≠ none

/-! ENCODE -/

/-- R101 (its success path), R102, R103, R104, R105: with a group present, a legal selector and no terminator in the group,
ENCODE writes the twelve characters, position by position, under either value of `LOW_PAIR_ORDER` (R9). -/
def Obligations.EncodeBuildsCodeWord : Prop :=
  ∀ s : State, s.operands.encCtrl.groupPresent = true → 0 ≤ s.operands.device.toInt → s.operands.device.toInt < 5 →
    (∀ k < 5, groupChar s.operands k ≠ 0x00#8) →
    ∃ t, exec .encode s = .next t ∧ t.response = some { resp := .ok, rdata := none } ∧
      readWord t 0x04#8 = 0x00010C01#32 ∧
      (∀ k < 5, Memory.read t.results.out k = groupChar s.operands k) ∧
      (∀ i : Nat, i < 3 →
        Memory.read t.results.out (5 + i) = if s.operands.device.toInt = 4 - (i : Int) then 0x31#8 else 0x46#8) ∧
      (∀ i : Nat, i < 2 →
        Memory.read t.results.out (8 + i) =
          if s.operands.device.toInt = (match s.lowPairOrder with | .vector => (i : Int) | .formula => 1 - i)
          then 0x31#8 else 0x30#8) ∧
      Memory.read t.results.out 10 = (if s.operands.encCtrl.turnOn then 0x30#8 else 0x31#8) ∧
      Memory.read t.results.out 11 = (if s.operands.encCtrl.turnOn then 0x31#8 else 0x30#8) ∧
      (∀ i, 12 ≤ i → Memory.read t.results.out i = 0x00#8) ∧
      Blank t.results.tout ∧ readWord t 0x24#8 = 0#32

/-- R107, R108 and R162 for ENCODE: the three failures, the first in order reported, each with an empty result that is not to
be transmitted. -/
def Obligations.EncodeFailsInOrder : Prop :=
  ∀ s : State,
    (s.operands.encCtrl.groupPresent = false →
      ∃ t, exec .encode s = .next t ∧ FailedWith .groupAbsent t.results ∧ readWord t 0x04#8 = 0x00010020#32) ∧
    (s.operands.encCtrl.groupPresent = true → s.operands.device.toInt < 0 ∨ 5 ≤ s.operands.device.toInt →
      ∃ t, exec .encode s = .next t ∧ FailedWith .deviceRange t.results ∧ readWord t 0x04#8 = 0x00010030#32) ∧
    (s.operands.encCtrl.groupPresent = true → 0 ≤ s.operands.device.toInt → s.operands.device.toInt < 5 →
      (∃ k < 5, groupChar s.operands k = 0x00#8) →
      ∃ t, exec .encode s = .next t ∧ FailedWith .groupShort t.results ∧ readWord t 0x04#8 = 0x00010040#32)

/-- R106: the five device characters for every legal selector, exactly one of them `'1'`; and, with the exchange of R104, the same
under `FORMULA` (95_test_vectors 2.1). -/
def Obligations.DeviceFieldPatterns : Prop :=
  ∀ (s : State) (pattern : List Byte),
    s.operands.encCtrl.groupPresent = true → (∀ k < 5, groupChar s.operands k ≠ 0x00#8) →
    (s.lowPairOrder, s.operands.device, pattern) ∈
      [(.vector, 0#32, [0x46#8, 0x46#8, 0x46#8, 0x31#8, 0x30#8]), (.vector, 1#32, [0x46#8, 0x46#8, 0x46#8, 0x30#8, 0x31#8]),
        (.vector, 2#32, [0x46#8, 0x46#8, 0x31#8, 0x30#8, 0x30#8]), (.vector, 3#32, [0x46#8, 0x31#8, 0x46#8, 0x30#8, 0x30#8]),
        (.vector, 4#32, [0x31#8, 0x46#8, 0x46#8, 0x30#8, 0x30#8]),
        (.formula, 0#32, [0x46#8, 0x46#8, 0x46#8, 0x30#8, 0x31#8]), (.formula, 1#32, [0x46#8, 0x46#8, 0x46#8, 0x31#8, 0x30#8]),
        (.formula, 2#32, [0x46#8, 0x46#8, 0x31#8, 0x30#8, 0x30#8]), (.formula, 3#32, [0x46#8, 0x31#8, 0x46#8, 0x30#8, 0x30#8]),
        (.formula, 4#32, [0x31#8, 0x46#8, 0x46#8, 0x30#8, 0x30#8])] →
    ∃ t, exec .encode s = .next t ∧ (List.range 5).map (fun i => Memory.read t.results.out (5 + i)) = pattern ∧
      ((List.range 5).map (fun i => Memory.read t.results.out (5 + i))).count 0x31#8 = 1

/-- R9, R104: under `LOW_PAIR_ORDER = FORMULA` positions 8 and 9 of an ENCODE swap roles, and nothing else changes: not the rest of
its results, not the results of any other command. -/
def Obligations.FormulaReadingSwapsLowField : Prop :=
  (∀ s u : State, s.lowPairOrder = .vector → u.lowPairOrder = .formula → s.operands = u.operands →
    ∃ t v, exec .encode s = .next t ∧ exec .encode u = .next v ∧
      v.results.status = t.results.status ∧ v.results.diagInfo = t.results.diagInfo ∧ v.results.tout = t.results.tout ∧
      Memory.read v.results.out 8 = Memory.read t.results.out 9 ∧
      Memory.read v.results.out 9 = Memory.read t.results.out 8 ∧
      ∀ i, i ≠ 8 → i ≠ 9 → Memory.read v.results.out i = Memory.read t.results.out i) ∧
  (∀ (i : Instr) (s u : State), runsCommand i = true → i ≠ .encode → i ≠ .wr32 0x00#8 0x00000001#32 →
    s.operands = u.operands → ∃ t v, exec i s = .next t ∧ exec i u = .next v ∧ t.results = v.results)

/-- R171 (the block's part): after an ENCODE the host has a code word to transmit exactly when the command succeeded, and then
twelve characters; otherwise OUT holds the empty string. -/
def Obligations.OnlySuccessfulCodeWordIsTransmitted : Prop :=
  ∀ s : State, ∃ t, exec .encode s = .next t ∧
    (t.results.status.ok = true → ∃ c, transmittable t = some c ∧ c.length = 12) ∧
    (t.results.status.ok = false → transmittable t = none ∧ Blank t.results.out)

/-- R186: the group check at initialisation, with either TURNON (R185), accepts a group exactly when none of its five characters is the terminator, and
otherwise reports GROUP_SHORT. -/
def Obligations.GroupCheckAcceptsFullGroups : Prop :=
  ∀ (s : State) (on : Bool) (c0 c1 c2 c3 c4 : Byte), ∃ t, runLines (groupCheck on c0 c1 c2 c3 c4) s = .next t ∧
    (t.results.status.ok = true ↔ c0 ≠ 0#8 ∧ c1 ≠ 0#8 ∧ c2 ≠ 0#8 ∧ c3 ≠ 0#8 ∧ c4 ≠ 0#8) ∧
    (t.results.status.ok = false → t.results.status.cause = .groupShort)

/-! TO_BINARY -/

/-- R121 (its success path), R122: character `j` is bit `n-1-j` of VALUE, the most significant first, with zero padding
beyond 32 bits, OUT_LEN is `n`, and nothing of the value is dropped. -/
def Obligations.ToBinaryWritesBits : Prop :=
  ∀ s : State, s.operands.bitLen.toNat ≤ 64 → s.operands.value.toNat < 2 ^ s.operands.bitLen.toNat →
    ∃ t, exec .toBinary s = .next t ∧ t.response = some { resp := .ok, rdata := none } ∧
      readWord t 0x04#8 = 0x00010001#32 ||| (s.operands.bitLen <<< 8) ∧
      (∀ j < s.operands.bitLen.toNat, Memory.read t.results.out j =
        if s.operands.value.getLsbD (s.operands.bitLen.toNat - 1 - j) then 0x31#8 else 0x30#8) ∧
      (∀ j, 32 + j < s.operands.bitLen.toNat → Memory.read t.results.out j = 0x30#8) ∧
      (∀ b, s.operands.bitLen.toNat ≤ b → s.operands.value.getLsbD b = false) ∧
      (∀ j, s.operands.bitLen.toNat ≤ j → Memory.read t.results.out j = 0x00#8) ∧
      Blank t.results.tout ∧ readWord t 0x24#8 = 0#32

/-- R123 and R162 for TO_BINARY: BITLEN above 64 fails first, then a value that needs more than BITLEN bits; no string is
produced. -/
def Obligations.ToBinaryFailsInOrder : Prop :=
  ∀ s : State,
    (64 < s.operands.bitLen.toNat →
      ∃ t, exec .toBinary s = .next t ∧ FailedWith .bitLenRange t.results ∧ readWord t 0x04#8 = 0x00010050#32) ∧
    (s.operands.bitLen.toNat ≤ 64 → 2 ^ s.operands.bitLen.toNat ≤ s.operands.value.toNat →
      ∃ t, exec .toBinary s = .next t ∧ FailedWith .valueTooWide t.results ∧ readWord t 0x04#8 = 0x00010060#32)

/-- R53, R81: the string TO_BINARY leaves in OUT writes the number VALUE. -/
def Obligations.ToBinaryStringDenotesValue : Prop :=
  ∀ s : State, s.operands.bitLen.toNat ≤ 64 → s.operands.value.toNat < 2 ^ s.operands.bitLen.toNat →
    ∃ t, exec .toBinary s = .next t ∧
      binaryValue (Memory.loadBytes t.results.out t.results.status.outLen.toNat) = s.operands.value.toNat

/-! TO_TRISTATE -/

/-- R125, R126: TriMap gives the sentinel for an odd length and for any pair without a symbol, and otherwise one symbol per
pair; never a partial string. -/
def Obligations.TriMapIsAllOrNothing : Prop :=
  ∀ s : List Byte,
    (s.length % 2 = 1 → triMap s = none) ∧
    ((∃ k, 2 * k + 1 < s.length ∧ ¬ValidPair (s.getD (2 * k) 0#8) (s.getD (2 * k + 1) 0#8)) → triMap s = none) ∧
    (s.length % 2 = 0 →
      (∀ k, 2 * k + 1 < s.length → ValidPair (s.getD (2 * k) 0#8) (s.getD (2 * k + 1) 0#8)) →
      ∃ t, triMap s = some t ∧ t.length = s.length / 2 ∧
        ∀ k < t.length, t.getD k 0#8 = pairSymbol (s.getD (2 * k) 0#8) (s.getD (2 * k + 1) 0#8))

/-- R129: TriMap and the pairing T2B undo each other. -/
def Obligations.TriMapRoundTrips : Prop :=
  (∀ t : List Byte, (∀ c ∈ t, c = 0x30#8 ∨ c = 0x31#8 ∨ c = 0x46#8) → triMap (triToBinary t) = some t) ∧
    (∀ s t : List Byte, triMap s = some t → triToBinary t = s)

/-- R127: TO_TRISTATE in its three outcomes. With TIN_LEN at most 64 and every pair valid it writes one symbol per pair; with an
odd length or an invalid pair it reports NA with OK = 1; with TIN_LEN above 64 it fails. OUT is empty in all three. -/
def Obligations.ToTristateOutcomes : Prop :=
  ∀ s : State,
    (s.operands.tinLen.toNat ≤ 64 → s.operands.tinLen.toNat % 2 = 0 →
      (∀ k, 2 * k + 1 < s.operands.tinLen.toNat →
        ValidPair (Memory.read s.operands.tin (2 * k)) (Memory.read s.operands.tin (2 * k + 1))) →
      ∃ t, exec .toTristate s = .next t ∧ t.response = some { resp := .ok, rdata := none } ∧
        readWord t 0x04#8 = 0x00010001#32 ∧ Blank t.results.out ∧
        readWord t 0x24#8 = BitVec.ofNat 32 (s.operands.tinLen.toNat / 2) ∧
        (∀ k < s.operands.tinLen.toNat / 2, Memory.read t.results.tout k =
          pairSymbol (Memory.read s.operands.tin (2 * k)) (Memory.read s.operands.tin (2 * k + 1))) ∧
        (∀ k, s.operands.tinLen.toNat / 2 ≤ k → Memory.read t.results.tout k = 0x00#8)) ∧
    (s.operands.tinLen.toNat ≤ 64 →
      (s.operands.tinLen.toNat % 2 = 1 ∨ ∃ k, 2 * k + 1 < s.operands.tinLen.toNat ∧
        ¬ValidPair (Memory.read s.operands.tin (2 * k)) (Memory.read s.operands.tin (2 * k + 1))) →
      ∃ t, exec .toTristate s = .next t ∧ readWord t 0x04#8 = 0x00010003#32 ∧ readWord t 0x24#8 = 0#32 ∧
        Blank t.results.out ∧ Blank t.results.tout) ∧
    (64 < s.operands.tinLen.toNat →
      ∃ t, exec .toTristate s = .next t ∧ FailedWith .tinLenRange t.results ∧ readWord t 0x04#8 = 0x00010070#32)

/-- R128(f): bytes of TIN at index TIN_LEN and above are never read. -/
def Obligations.TinBeyondLengthUnread : Prop :=
  ∀ s s' : State, s.operands.tinLen = s'.operands.tinLen →
    (∀ i < s.operands.tinLen.toNat, Memory.read s.operands.tin i = Memory.read s'.operands.tin i) →
    ∃ t t', exec .toTristate s = .next t ∧ exec .toTristate s' = .next t' ∧ t.results = t'.results

/-! DIAG -/

/-- R134: with VALUE 0 DIAG reports UNKNOWN with OK = 1 whatever BITLEN holds, with no string and RAW_COUNT 0. -/
def Obligations.DiagOfZeroIsUnknown : Prop :=
  ∀ s : State, s.operands.value = 0#32 →
    ∃ t, exec .diag s = .next t ∧ readWord t 0x04#8 = 0x00010005#32 ∧ readWord t 0x24#8 = 0#32 ∧
      Blank t.results.out ∧ Blank t.results.tout

/-- R133 (the decoding case), R132, R135: the binary string stays in OUT, RAW_COUNT is `2n+1`, and the sentinel arises exactly
from an odd `n` or a `"10"` pair; otherwise TOUT holds one symbol per pair. -/
def Obligations.DiagDecodesCapture : Prop :=
  ∀ s : State, s.operands.value ≠ 0#32 → s.operands.bitLen.toNat ≤ 64 →
    s.operands.value.toNat < 2 ^ s.operands.bitLen.toNat →
    ∃ t, exec .diag s = .next t ∧ t.response = some { resp := .ok, rdata := none } ∧
      t.results.status.ok = true ∧ t.results.status.unknown = false ∧ t.results.status.cause = .none ∧
      t.results.status.done = true ∧ t.results.status.outLen.toNat = s.operands.bitLen.toNat ∧
      1 ≤ s.operands.bitLen.toNat ∧
      t.results.diagInfo.rawCount.toNat = 2 * s.operands.bitLen.toNat + 1 ∧
      3 ≤ t.results.diagInfo.rawCount.toNat ∧ t.results.diagInfo.rawCount.toNat ≤ 129 ∧
      (∀ j < s.operands.bitLen.toNat, Memory.read t.results.out j =
        if s.operands.value.getLsbD (s.operands.bitLen.toNat - 1 - j) then 0x31#8 else 0x30#8) ∧
      (∀ j, s.operands.bitLen.toNat ≤ j → Memory.read t.results.out j = 0x00#8) ∧
      (t.results.status.na = true ↔
        s.operands.bitLen.toNat % 2 = 1 ∨ ∃ k, 2 * k + 1 < s.operands.bitLen.toNat ∧
          s.operands.value.getLsbD (s.operands.bitLen.toNat - 1 - 2 * k) = true ∧
          s.operands.value.getLsbD (s.operands.bitLen.toNat - 2 - 2 * k) = false) ∧
      (t.results.status.na = true → t.results.diagInfo.triLen.toNat = 0 ∧ Blank t.results.tout) ∧
      (t.results.status.na = false →
        t.results.diagInfo.triLen.toNat = s.operands.bitLen.toNat / 2 ∧
        (∀ k < s.operands.bitLen.toNat / 2, Memory.read t.results.tout k =
          pairSymbol (Memory.read t.results.out (2 * k)) (Memory.read t.results.out (2 * k + 1))) ∧
        (∀ k, s.operands.bitLen.toNat / 2 ≤ k → Memory.read t.results.tout k = 0x00#8))

/-- R133 and R162 for DIAG: with a value that is not 0 the two failures of BINARY, in order. -/
def Obligations.DiagFailsInOrder : Prop :=
  ∀ s : State, s.operands.value ≠ 0#32 →
    (64 < s.operands.bitLen.toNat →
      ∃ t, exec .diag s = .next t ∧ FailedWith .bitLenRange t.results ∧ readWord t 0x04#8 = 0x00010050#32) ∧
    (s.operands.bitLen.toNat ≤ 64 → 2 ^ s.operands.bitLen.toNat ≤ s.operands.value.toNat →
      ∃ t, exec .diag s = .next t ∧ FailedWith .valueTooWide t.results ∧ readWord t 0x04#8 = 0x00010060#32)

/-- R75, R80, R101, R133: a code word over the tri-state alphabet, captured as the 24 bits of its pairs, is decoded by DIAG to
the same twelve symbols. -/
def Obligations.EncodedWordDecodesBack : Prop :=
  ∀ s : State, s.operands.encCtrl.groupPresent = true → 0 ≤ s.operands.device.toInt → s.operands.device.toInt < 5 →
    (∀ k < 5, groupChar s.operands k = 0x30#8 ∨ groupChar s.operands k = 0x31#8 ∨ groupChar s.operands k = 0x46#8) →
    ∃ t, exec .encode s = .next t ∧
      ∀ u : State, u.operands.value = BitVec.ofNat 32 (binaryValue (triToBinary (Memory.loadBytes t.results.out 12))) →
        u.operands.bitLen = 24#32 →
        ∃ v, exec .diag u = .next v ∧ readWord v 0x04#8 = 0x00011801#32 ∧ readWord v 0x24#8 = 0x0000310C#32 ∧
          Memory.loadBytes v.results.tout 12 = Memory.loadBytes t.results.out 12

/-- R141, R142, R143: the report the host makes after a DIAG: no field but "unknown encoding" for value 0; otherwise the seven
fields in order, the raw samples the first `2n+1`. (Two clauses are the model's choice, log entry 11: that for value 0 no raw samples follow
"unknown encoding", which 91_not_in_source leaves open, and that a failing DIAG has no report.) -/
def Obligations.ReportFieldsInOrder : Prop :=
  ∀ (s : State) (c : CapturedSample),
    (s.operands.value = 0#32 → ∃ t, exec .diag s = .next t ∧ report c t = some [.unknownEncoding]) ∧
    (s.operands.value ≠ 0#32 → s.operands.bitLen.toNat ≤ 64 →
      s.operands.value.toNat < 2 ^ s.operands.bitLen.toNat →
      ∃ t, exec .diag s = .next t ∧
        report c t = some
          [.decimalValue s.operands.value.toNat, .bitCount s.operands.bitLen.toNat,
            .binary (binaryString s.operands.value s.operands.bitLen.toNat),
            (match triMap (binaryString s.operands.value s.operands.bitLen.toNat) with
              | none => .notApplicable
              | some x => .triState x),
            .pulseLength c.interPulseDelay, .protocolId c.protocolId,
            .rawPulses (c.rawPulses.take (2 * s.operands.bitLen.toNat + 1))]) ∧
    (s.operands.value ≠ 0#32 →
      64 < s.operands.bitLen.toNat ∨ 2 ^ s.operands.bitLen.toNat ≤ s.operands.value.toNat →
      ∃ t, exec .diag s = .next t ∧ report c t = none)

/-! Commands as a whole -/

/-- R72: a write of any other word to CMD runs ILLEGAL: the results are cleared and cause 1 is reported. -/
def Obligations.IllegalCommandFails : Prop :=
  ∀ (s : State) (w : Word),
    w ≠ 0x00000001#32 → w ≠ 0x00000002#32 → w ≠ 0x00000003#32 → w ≠ 0x00000004#32 →
    ∃ t, exec (.wr32 0x00#8 w) s = .next t ∧ t.response = some { resp := .ok, rdata := none } ∧
      FailedWith .illegalCmd t.results ∧ readWord t 0x04#8 = 0x00010010#32 ∧ t.operands = s.operands

/-- R43: no command writes an operand register or a TIN byte, so any number of commands leave every operand as the host last
wrote it; nor do they touch the host's record. -/
def Obligations.CommandsKeepOperands : Prop :=
  (∀ (i : Instr) (s : State), runsCommand i = true →
    ∃ t, exec i s = .next t ∧ t.operands = s.operands ∧ t.lowPairOrder = s.lowPairOrder ∧ t.hostFault = s.hostFault ∧
      t.inputs = s.inputs ∧ ∀ off, off.toNat < 0x80 → off ≠ 0x04#8 → off ≠ 0x24#8 → readWord t off = readWord s off) ∧
  (∀ (words : List Word) (s : State),
    ∃ t, runLines (words.map fun w => .wr .cmd w) s = .next t ∧ t.operands = s.operands)

/-- R161: whichever command fails, with whichever cause, the state is the cleared results with that cause; the operands are
as they were. -/
def Obligations.FailureIsPrecise : Prop :=
  ∀ (i : Instr) (s t : State), runsCommand i = true → exec i s = .next t → t.results.status.ok = false →
    t.results.status.cause ≠ .none ∧ FailedWith t.results.status.cause t.results ∧ t.operands = s.operands

/-- R161, R195, R109(e): under one `LOW_PAIR_ORDER` (R9) the results of a command are a function of the command and the operands
alone. -/
def Obligations.ResultsDependOnOperandsOnly : Prop :=
  ∀ (i : Instr) (s s' : State), runsCommand i = true → s.lowPairOrder = s'.lowPairOrder → s.operands = s'.operands →
    ∃ t t', exec i s = .next t ∧ exec i s' = .next t' ∧ t.results = t'.results ∧ t.response = t'.response

/-- R57: any access repeated with nothing between leaves the same state as once. The premise BuffersCanonical is about the
model's form of a buffer (log entry 10). -/
def Obligations.RepeatedAccessIsIdempotent : Prop :=
  ∀ (i : Instr) (s t : State), BuffersCanonical s → exec i s = .next t → exec i t = .next t

/-- R185: operand writes at two different offsets may come in either order. The premise BuffersCanonical is about the model's
form of a buffer (log entry 10). -/
def Obligations.OperandWriteOrderIsFree : Prop :=
  ∀ (s t t' u u' : State) (off off' : Offset) (data data' : Word), BuffersCanonical s →
    off ≠ 0x00#8 → off' ≠ 0x00#8 → off ≠ off' →
    exec (.wr32 off data) s = .next t → exec (.wr32 off' data') t = .next u →
    exec (.wr32 off' data') s = .next t' → exec (.wr32 off data) t' = .next u' →
    u.operands = u'.operands ∧ u.results = u'.results ∧ u.hostFault = u'.hostFault

/-- R60, R191, R194: after a write at any offset but CMD every command, by its own name or by its word, has the results that the
operands with the written word give, whatever word stood there before. What operands those are is said register by register; for
TIN, byte by byte. Last, TO_BINARY after its two operand writes, in full. The premise Memory.wf is about the model's form of a
buffer (log entry 10). -/
def Obligations.CommandUsesLatestOperands : Prop :=
  (∀ (s : State) (off : Offset) (data w : Word), wordAligned off = true → off ≠ 0x00#8 →
    ∃ t, exec (.wr32 off data) s = .next t ∧
      ∀ p ∈ [(Instr.encode, Command.encode), (.toBinary, .toBinary), (.toTristate, .toTristate), (.diag, .diag),
          (.wr32 0x00#8 w, decodeCommand w)],
        ∃ u, exec p.1 t = .next u ∧
          u.results = commandResults s.lowPairOrder p.2 (writeLocation data s.operands (locate off))) ∧
  (∀ (o : Operands) (data : Word),
    (∀ p ∈ [(0x08#8, { o with encCtrl := { turnOn := data.getLsbD 0, groupPresent := data.getLsbD 1 } }),
        (0x0C#8, { o with device := data }), (0x10#8, { o with groupLo := data }),
        (0x14#8, { o with groupHi := data.extractLsb' 0 8 }), (0x18#8, { o with value := data }),
        (0x1C#8, { o with bitLen := data }), (0x20#8, { o with tinLen := data.extractLsb' 0 8 })],
      writeLocation data o (locate p.1) = p.2) ∧
    (Memory.wf 64 o.tin = true → ∀ k < 16, ∃ m,
      writeLocation data o (locate (BitVec.ofNat 8 (0x40 + 4 * k))) = { o with tin := m } ∧
        ∀ i, Memory.read m i =
          if 4 * k ≤ i ∧ i < 4 * k + 4 then data.extractLsb' (8 * (i - 4 * k)) 8 else Memory.read o.tin i)) ∧
  (∀ (s : State) (v n : Word), n.toNat ≤ 64 → v.toNat < 2 ^ n.toNat →
    ∃ t, runLines [.wr .value v, .wr .bitLen n, .wr .cmd 0x00000002#32] s = .next t ∧
      t.results.status.ok = true ∧
      Memory.loadBytes t.results.out n.toNat =
        (List.range n.toNat).map fun j => if v.getLsbD (n.toNat - 1 - j) then 0x31#8 else 0x30#8)

/-- R31, R47: DONE is 0 after reset, every command sets it, failing or not, no step but a reset clears it, and no step but one
that serves a 32-bit write at CMD sets it. -/
def Obligations.DoneIsSetByCommandsOnly : Prop :=
  State.reset.results.status.done = false ∧
  (∀ (i : Instr) (s : State), runsCommand i = true → ∃ t, exec i s = .next t ∧ t.results.status.done = true) ∧
  (∀ s t : State, step s = .next t → s.results.status.done = true → (∀ rest, s.inputs ≠ .reset :: rest) →
    t.results.status.done = true) ∧
  (∀ s t : State, step s = .next t → s.results.status.done = false → t.results.status.done = true →
    ∃ x rest, s.inputs = .access .w32 x :: rest ∧ x.extractLsb' 32 9 = 0x100#9)

/-- R47: the flags are written only by commands and reset; no other access changes any result. -/
def Obligations.FlagsWrittenOnlyByCommands : Prop :=
  (∀ (i : Instr) (s : State), runsCommand i = false → ∃ t, exec i s = .next t ∧ t.results = s.results) ∧
  (∀ s t : State, step s = .next t → t.results ≠ s.results →
    (∃ rest, s.inputs = .reset :: rest) ∨
      ∃ x rest, s.inputs = .access .w32 x :: rest ∧ x.extractLsb' 32 9 = 0x100#9)

/-- R27: NA is set only by TO_TRISTATE and DIAG when the pairwise mapping of their binary string yields the sentinel, with
OK = 1. -/
def Obligations.NaOnlyFromPairwiseMapping : Prop :=
  ∀ (i : Instr) (s t : State), runsCommand i = true → exec i s = .next t → t.results.status.na = true →
    t.results.status.ok = true ∧
      (((i = .toTristate ∨ i = .wr32 0x00#8 0x00000003#32) ∧ triMap s.operands.tinString = none) ∨
        ((i = .diag ∨ i = .wr32 0x00#8 0x00000004#32) ∧
          triMap (binaryString s.operands.value s.operands.bitLen.toNat) = none))

/-- R28: UNKNOWN is set exactly by a DIAG with VALUE 0, with OK = 1. -/
def Obligations.UnknownOnlyFromZeroDiag : Prop :=
  ∀ (i : Instr) (s t : State), runsCommand i = true → exec i s = .next t →
    (t.results.status.unknown = true ↔
      (i = .diag ∨ i = .wr32 0x00#8 0x00000004#32) ∧ s.operands.value = 0#32) ∧
    (t.results.status.unknown = true → t.results.status.ok = true)

/-! Invariants -/

/-- R45: after every command, from whatever state, and after reset, the relations (a) to (e) hold. -/
def Obligations.StatusLawsAfterEveryCommand : Prop :=
  StatusLaws State.reset.results ∧
    ∀ (i : Instr) (s : State), runsCommand i = true → ∃ t, exec i s = .next t ∧ StatusLaws t.results

/-- The invariants below hold at reset: the relations of R45, the lengths' ranges of R30 and R38, and buffers inside the sizes of R40
to R42 in their canonical form, which is the model's choice and no rule of the spec (log entry 10). -/
def Obligations.InvariantsHoldAtReset : Prop :=
  BuffersCanonical State.reset ∧ StatusLaws State.reset.results ∧ LengthsInRange State.reset.results

/-- Every step keeps every buffer in its canonical form and inside its size. The sizes are those of R40 to R42, and 0x00, which no
cell lists, is the reset content of R46; the form itself (a list of cells, indexes strictly rising, no 0x00 listed) is the model's
choice and no rule of the spec (log entry 10). -/
def Obligations.StepKeepsBuffersCanonical : Prop :=
  ∀ s t : State, BuffersCanonical s → step s = .next t → BuffersCanonical t

/-- R29, R30, R31, R38, R45: every step keeps the relations between the result fields and the ranges of the lengths. -/
def Obligations.StepKeepsStatusLaws : Prop :=
  ∀ s t : State, StatusLaws s.results → LengthsInRange s.results → step s = .next t →
    StatusLaws t.results ∧ LengthsInRange t.results

/-! The host's notation and placement -/

/-- R84: SETGROUP leaves the five characters in the group and everything else as it was. -/
def Obligations.SetGroupLoadsGroup : Prop :=
  ∀ (s : State) (c0 c1 c2 c3 c4 : Byte), ∃ t, runLines (expand (.setGroup c0 c1 c2 c3 c4)) s = .next t ∧
    t.operands.group = [c0, c1, c2, c3, c4] ∧
    t.operands = { s.operands with groupLo := t.operands.groupLo, groupHi := t.operands.groupHi } ∧
    t.results = s.results

/-- R84: LDTIN leaves the string as the input string of TO_TRISTATE. The premise BuffersCanonical is about the model's form of a
buffer (log entry 10). -/
def Obligations.LdTinLoadsString : Prop :=
  ∀ (s : State) (str : List Byte), BuffersCanonical s → str.length ≤ 64 →
    ∃ t, runLines (expand (.ldTin str)) s = .next t ∧ t.operands.tinLen.toNat = str.length ∧
      t.operands.tinString = str ∧ t.results = s.results

/-- R23, R50, R58: for every TSCW_BASE, the host addresses of the register space and its offsets stand for each other. -/
def Obligations.HostAddressesNameOffsets : Prop :=
  (∀ off : Offset, offsetOfHostAddress (hostAddress off) = some off) ∧
    ∀ (a : Nat) (off : Offset), offsetOfHostAddress a = some off → hostAddress off = a

/-! The parameter -/

/-- R8, R9: `LOW_PAIR_ORDER` is a parameter: VECTOR unless chosen otherwise, and one value for a whole run, for no step changes it,
a reset neither. -/
def Obligations.LowPairOrderIsFixed : Prop :=
  State.reset.lowPairOrder = .vector ∧ ∀ s t : State, step s = .next t → t.lowPairOrder = s.lowPairOrder
end

