-- ==== Sys2Proof/Laws/Memory.lean ====
section
/-! SUPPORT. The laws of the byte buffers: a read after a write, the canonical form, and what a stored string or word reads as. -/

namespace Sys2Proof.Machine

@[simp] theorem Memory.read_nil (i : Nat) : Memory.read [] i = 0#8 := rfl

theorem Memory.read_cons (k : Nat) (c : Byte) (m : Memory) (i : Nat) :
    Memory.read ((k, c) :: m) i = if k = i then c else Memory.read m i := rfl

theorem Memory.wfFrom_cons {size lo k : Nat} {c : Byte} {m : Memory} :
    Memory.wfFrom size lo ((k, c) :: m) = true ↔
      lo ≤ k ∧ k < size ∧ c ≠ 0#8 ∧ Memory.wfFrom size (k + 1) m = true := by
  simp [Memory.wfFrom, Memory.unlisted, and_assoc]

/-- A lower bound may be lowered. -/
theorem Memory.wfFrom_mono {size lo lo' : Nat} {m : Memory} (hle : lo' ≤ lo)
    (h : Memory.wfFrom size lo m = true) : Memory.wfFrom size lo' m = true := by
  cases m with
  | nil => rfl
  | cons kc m =>
    obtain ⟨k, c⟩ := kc
    rw [Memory.wfFrom_cons] at h ⊢
    exact ⟨hle.trans h.1, h.2⟩

/-- A size may be raised. -/
theorem Memory.wfFrom_size_mono {size size' : Nat} (hle : size ≤ size') :
    ∀ {lo : Nat} {m : Memory}, Memory.wfFrom size lo m = true → Memory.wfFrom size' lo m = true
  | _, [], _ => rfl
  | lo, (k, c) :: m, h => by
    rw [Memory.wfFrom_cons] at h ⊢
    exact ⟨h.1, h.2.1.trans_le hle, h.2.2.1, Memory.wfFrom_size_mono hle h.2.2.2⟩

theorem Memory.wf_size_mono {size size' : Nat} (hle : size ≤ size') {m : Memory} (h : Memory.wf size m = true) :
    Memory.wf size' m = true :=
  Memory.wfFrom_size_mono hle h

/-- A byte below every listed index reads as 0. -/
theorem Memory.read_below {size : Nat} :
    ∀ {lo i : Nat} {m : Memory}, Memory.wfFrom size lo m = true → i < lo → Memory.read m i = 0#8
  | _, _, [], _, _ => rfl
  | lo, i, (k, c) :: m, h, hi => by
    rw [Memory.wfFrom_cons] at h
    rw [Memory.read_cons, if_neg (by omega)]
    exact Memory.read_below h.2.2.2 (by omega)

/-- A byte past the buffer's size reads as 0. -/
theorem Memory.read_beyond {size : Nat} :
    ∀ {lo i : Nat} {m : Memory}, Memory.wfFrom size lo m = true → size ≤ i → Memory.read m i = 0#8
  | _, _, [], _, _ => rfl
  | lo, i, (k, c) :: m, h, hi => by
    rw [Memory.wfFrom_cons] at h
    rw [Memory.read_cons, if_neg (by omega)]
    exact Memory.read_beyond h.2.2.2 hi

/-- A write leaves every other byte alone. -/
theorem Memory.read_write_other {i j : Nat} (hij : i ≠ j) (b : Byte) :
    ∀ m : Memory, Memory.read (Memory.write m i b) j = Memory.read m j
  | [] => by
    by_cases hb : b = Memory.unlisted <;> simp [Memory.write, hb, Memory.read_cons, hij]
  | (k, c) :: m => by
    have ih := Memory.read_write_other hij b m
    rw [Memory.write]
    split_ifs with h1 h2 h3 h4
    · rfl
    · rw [Memory.read_cons, if_neg hij]
    · rw [Memory.read_cons, if_neg (by omega)]
    · simp only [Memory.read_cons]
      rw [if_neg hij, if_neg (by omega)]
    · simp only [Memory.read_cons, ih]

/-- A read after a write to the same byte gives the byte written. -/
theorem Memory.read_write_same {size : Nat} (i : Nat) (b : Byte) :
    ∀ {lo : Nat} {m : Memory}, Memory.wfFrom size lo m = true → Memory.read (Memory.write m i b) i = b
  | _, [], _ => by
    rw [Memory.write]
    split_ifs with hb
    · exact hb.symm
    · rw [Memory.read_cons, if_pos rfl]
  | lo, (k, c) :: m, h => by
    rw [Memory.wfFrom_cons] at h
    rw [Memory.write]
    split_ifs with h1 h2 h3 h4
    · rw [h2, Memory.read_cons, if_neg (by omega)]
      exact Memory.read_below h.2.2.2 (by omega)
    · rw [Memory.read_cons, if_pos rfl]
    · rw [h4]
      exact Memory.read_below h.2.2.2 (by omega)
    · rw [Memory.read_cons, if_pos rfl]
    · rw [Memory.read_cons, if_neg (by omega)]
      exact Memory.read_write_same i b h.2.2.2

/-- A write inside the buffer keeps the canonical form. -/
theorem Memory.wfFrom_write {size i : Nat} (b : Byte) (hi : i < size) :
    ∀ {lo : Nat} {m : Memory}, lo ≤ i → Memory.wfFrom size lo m = true →
      Memory.wfFrom size lo (Memory.write m i b) = true
  | lo, [], hlo, _ => by
    rw [Memory.write]
    split_ifs with hb
    · rfl
    · exact Memory.wfFrom_cons.2 ⟨hlo, hi, hb, rfl⟩
  | lo, (k, c) :: m, hlo, h => by
    have h' := Memory.wfFrom_cons.1 h
    rw [Memory.write]
    split_ifs with h1 h2 h3 h4
    · exact h
    · exact Memory.wfFrom_cons.2 ⟨hlo, hi, h2, Memory.wfFrom_cons.2 ⟨h1, h'.2⟩⟩
    · exact Memory.wfFrom_mono (by omega) h'.2.2.2
    · exact Memory.wfFrom_cons.2 ⟨hlo, hi, h4, by rw [h3]; exact h'.2.2.2⟩
    · exact Memory.wfFrom_cons.2 ⟨h'.1, h'.2.1, h'.2.2.1, Memory.wfFrom_write b hi (by omega) h'.2.2.2⟩

theorem Memory.wf_write {size i : Nat} (b : Byte) (hi : i < size) {m : Memory} (h : Memory.wf size m = true) :
    Memory.wf size (Memory.write m i b) = true :=
  Memory.wfFrom_write b hi (Nat.zero_le i) h

/-- The tail of a canonical buffer reads as 0 at its head's index and below. -/
theorem Memory.read_tail {size lo k : Nat} {c : Byte} {m : Memory} (h : Memory.wfFrom size lo ((k, c) :: m) = true)
    {i : Nat} (hi : i ≤ k) : Memory.read m i = 0#8 :=
  Memory.read_below (Memory.wfFrom_cons.1 h).2.2.2 (by omega)

/-- Equal contents are equal lists: what the canonical form is for. -/
theorem Memory.ext_from {size : Nat} :
    ∀ {lo : Nat} {m m' : Memory}, Memory.wfFrom size lo m = true → Memory.wfFrom size lo m' = true →
      (∀ i, Memory.read m i = Memory.read m' i) → m = m'
  | _, [], [], _, _, _ => rfl
  | _, [], (k, c) :: m', _, h', hr => by
    have := hr k
    rw [Memory.read_cons, if_pos rfl] at this
    exact absurd this.symm (Memory.wfFrom_cons.1 h').2.2.1
  | _, (k, c) :: m, [], h, _, hr => by
    have := hr k
    rw [Memory.read_cons, if_pos rfl] at this
    exact absurd this (Memory.wfFrom_cons.1 h).2.2.1
  | lo, (k, c) :: m, (k', c') :: m', h, h', hr => by
    have hc := (Memory.wfFrom_cons.1 h).2.2.1
    have hc' := (Memory.wfFrom_cons.1 h').2.2.1
    have hk : k = k' := by
      rcases Nat.lt_trichotomy k k' with hlt | heq | hlt
      · have e := hr k
        rw [Memory.read_cons, if_pos rfl, Memory.read_cons, if_neg (by omega),
          Memory.read_tail h' (by omega)] at e
        exact absurd e hc
      · exact heq
      · have e := hr k'
        rw [Memory.read_cons, if_neg (by omega), Memory.read_cons, if_pos rfl, Memory.read_tail h (by omega)] at e
        exact absurd e.symm hc'
    subst hk
    have hcc : c = c' := by
      have e := hr k
      rwa [Memory.read_cons, if_pos rfl, Memory.read_cons, if_pos rfl] at e
    subst hcc
    have htail : m = m' := by
      apply Memory.ext_from (Memory.wfFrom_cons.1 h).2.2.2 (Memory.wfFrom_cons.1 h').2.2.2
      intro i
      by_cases hi : k = i
      · rw [Memory.read_tail h (by omega), Memory.read_tail h' (by omega)]
      · have e := hr i
        rwa [Memory.read_cons, if_neg hi, Memory.read_cons, if_neg hi] at e
    rw [htail]

theorem Memory.ext {size : Nat} {m m' : Memory} (h : Memory.wf size m = true) (h' : Memory.wf size m' = true)
    (hr : ∀ i, Memory.read m i = Memory.read m' i) : m = m' :=
  Memory.ext_from h h' hr

/-! Strings. -/

theorem Memory.wf_storeBytes {size : Nat} :
    ∀ (bs : List Byte) {i : Nat} {m : Memory}, i + bs.length ≤ size → Memory.wf size m = true →
      Memory.wf size (Memory.storeBytes m i bs) = true
  | [], _, _, _, h => h
  | b :: bs, i, m, hi, h => by
    have hi' : i + (bs.length + 1) ≤ size := by simpa using hi
    exact Memory.wf_storeBytes bs (by omega) (Memory.wf_write b (by omega) h)

/-- A stored string reads back, and every byte outside it is as before. -/
theorem Memory.read_storeBytes {size : Nat} :
    ∀ (bs : List Byte) {i : Nat} {m : Memory} (j : Nat), i + bs.length ≤ size → Memory.wf size m = true →
      Memory.read (Memory.storeBytes m i bs) j =
        if i ≤ j ∧ j < i + bs.length then bs.getD (j - i) 0#8 else Memory.read m j
  | [], i, m, j, _, _ => by
    rw [if_neg (by simp), Memory.storeBytes]
  | b :: bs, i, m, j, hi, h => by
    have hi' : i + (bs.length + 1) ≤ size := by simpa using hi
    rw [Memory.storeBytes, Memory.read_storeBytes bs j (by omega) (Memory.wf_write b (by omega) h)]
    rcases Nat.lt_trichotomy j i with hlt | heq | hgt
    · rw [if_neg (by omega), if_neg (by simp; omega), Memory.read_write_other (by omega)]
    · subst heq
      rw [if_neg (by omega), if_pos (by simp), Memory.read_write_same j b h]
      simp
    · obtain ⟨d, rfl⟩ : ∃ d, j = i + 1 + d := ⟨j - (i + 1), by omega⟩
      by_cases hd : d < bs.length
      · rw [if_pos (by omega), if_pos (by simp; omega), show i + 1 + d - (i + 1) = d by omega,
          show i + 1 + d - i = d + 1 by omega, List.getD_cons_succ]
      · rw [if_neg (by omega), if_neg (by simp; omega), Memory.read_write_other (by omega)]

@[simp] theorem Memory.wf_nil (size : Nat) : Memory.wf size [] = true := rfl

/-- A string stored into an empty buffer is canonical. -/
theorem Memory.wf_storeBytes_nil {size : Nat} {bs : List Byte} (h : bs.length ≤ size) :
    Memory.wf size (Memory.storeBytes [] 0 bs) = true :=
  Memory.wf_storeBytes bs (by omega) rfl

/-- A string stored into an empty buffer from byte 0 on reads back, and every byte past it reads as 0. -/
theorem Memory.read_storeBytes_nil (bs : List Byte) (j : Nat) :
    Memory.read (Memory.storeBytes [] 0 bs) j = bs.getD j 0#8 := by
  rw [Memory.read_storeBytes (size := bs.length) bs j (by omega) rfl]
  split_ifs with h
  · rw [Nat.sub_zero]
  · rw [Memory.read_nil, List.getD_eq_default _ _ (by omega)]

@[simp] theorem Memory.length_loadBytes (m : Memory) (n : Nat) : (Memory.loadBytes m n).length = n := by
  simp [Memory.loadBytes]

/-- The first bytes after a string of that length was stored are the string. -/
theorem Memory.loadBytes_storeBytes_nil (bs : List Byte) :
    Memory.loadBytes (Memory.storeBytes [] 0 bs) bs.length = bs := by
  apply List.ext_getElem (by simp)
  intro i h1 h2
  simp [Memory.loadBytes, Memory.read_storeBytes_nil, h2]

theorem read_outOf (b : List Byte) (j : Nat) : Memory.read (outOf b) j = b.getD j 0#8 :=
  Memory.read_storeBytes_nil b j

theorem read_toutOf (t : List Byte) (j : Nat) : Memory.read (toutOf t) j = t.getD j 0#8 :=
  Memory.read_storeBytes_nil t j

theorem wf_outOf {size : Nat} {b : List Byte} (h : b.length ≤ size) : Memory.wf size (outOf b) = true :=
  Memory.wf_storeBytes_nil h

theorem wf_toutOf {size : Nat} {t : List Byte} (h : t.length ≤ size) : Memory.wf size (toutOf t) = true :=
  Memory.wf_storeBytes_nil h

theorem loadBytes_outOf (b : List Byte) : Memory.loadBytes (outOf b) b.length = b :=
  Memory.loadBytes_storeBytes_nil b

theorem loadBytes_toutOf (t : List Byte) : Memory.loadBytes (toutOf t) t.length = t :=
  Memory.loadBytes_storeBytes_nil t

/-! Words (R52). -/

/-- The bits of a word made of four bytes (R52). -/
theorem getLsbD_wordOfBytes (b0 b1 b2 b3 : Byte) (k : Nat) :
    (wordOfBytes b0 b1 b2 b3).getLsbD k =
      if k < 8 then b0.getLsbD k else if k < 16 then b1.getLsbD (k - 8)
      else if k < 24 then b2.getLsbD (k - 16) else b3.getLsbD (k - 24) := by
  show BitVec.getLsbD (w := 8 + 8 + 8 + 8) (b3 ++ b2 ++ b1 ++ b0) k = _
  rw [BitVec.getLsbD_append, BitVec.getLsbD_append, BitVec.getLsbD_append]
  by_cases h1 : k < 8
  · simp [h1]
  by_cases h2 : k < 16
  · simp [h1, h2, show k - 8 < 8 by omega]
  by_cases h3 : k < 24
  · simp [h1, h2, h3, show ¬ k - 8 < 8 by omega, show k - 8 - 8 = k - 16 by omega]
    omega
  · simp [h1, h2, h3, show ¬ k - 8 < 8 by omega, show ¬ k - 8 - 8 < 8 by omega,
      show k - 8 - 8 - 8 = k - 24 by omega]

/-- Byte `j` of a word made of four bytes is the `j`-th of them (R52). -/
theorem byte_wordOfBytes (b0 b1 b2 b3 : Byte) {j : Nat} (hj : j < 4) :
    Sys2Proof.Word.byte (wordOfBytes b0 b1 b2 b3) j = [b0, b1, b2, b3].getD j 0#8 := by
  have cases : j = 0 ∨ j = 1 ∨ j = 2 ∨ j = 3 := by omega
  rcases cases with rfl | rfl | rfl | rfl <;>
    (ext k hk; simp [Sys2Proof.Word.byte, getLsbD_wordOfBytes, hk]) <;> grind

/-- Byte `j` of the word at index `i` is buffer byte `i + j`. -/
theorem Memory.byte_readWord (m : Memory) (i : Nat) {j : Nat} (hj : j < 4) :
    Sys2Proof.Word.byte (Memory.readWord m i) j = Memory.read m (i + j) := by
  rw [Memory.readWord, byte_wordOfBytes _ _ _ _ hj]
  have cases : j = 0 ∨ j = 1 ∨ j = 2 ∨ j = 3 := by omega
  rcases cases with rfl | rfl | rfl | rfl <;> rfl

/-- A word is known by its four bytes. -/
theorem Word.eq_of_bytes {v w : Word} (h : ∀ j < 4, Sys2Proof.Word.byte v j = Sys2Proof.Word.byte w j) : v = w := by
  apply BitVec.eq_of_getLsbD_eq
  intro k hk
  have e := congrArg (fun b : Byte => b.getLsbD (k % 8)) (h (k / 8) (by omega))
  simpa [Sys2Proof.Word.byte, Nat.mod_lt, Nat.div_add_mod] using e

theorem Word.length_bytes (w : Word) : (Word.bytes w).length = 4 := rfl

theorem Word.getD_bytes (w : Word) {j : Nat} (hj : j < 4) : (Word.bytes w).getD j 0#8 = Sys2Proof.Word.byte w j := by
  have cases : j = 0 ∨ j = 1 ∨ j = 2 ∨ j = 3 := by omega
  rcases cases with rfl | rfl | rfl | rfl <;> rfl

theorem Memory.wf_writeWord {size i : Nat} {m : Memory} (w : Word) (hi : i + 4 ≤ size) (h : Memory.wf size m = true) :
    Memory.wf size (Memory.writeWord m i w) = true :=
  Memory.wf_storeBytes _ (by rw [Word.length_bytes]; exact hi) h

/-- A stored word's bytes read back, and every byte outside it is as before. -/
theorem Memory.read_writeWord {size i : Nat} {m : Memory} (w : Word) (j : Nat) (hi : i + 4 ≤ size)
    (h : Memory.wf size m = true) :
    Memory.read (Memory.writeWord m i w) j =
      if i ≤ j ∧ j < i + 4 then Sys2Proof.Word.byte w (j - i) else Memory.read m j := by
  rw [Memory.writeWord, Memory.read_storeBytes (size := size) _ j (by rw [Word.length_bytes]; exact hi) h,
    Word.length_bytes]
  split_ifs with hj
  · exact Word.getD_bytes w (by omega)
  · rfl

/-- Bytes outside a stored word are as before, whatever form the buffer has. -/
theorem Memory.read_writeWord_other (m : Memory) {i j : Nat} (w : Word) (hj : j < i ∨ i + 4 ≤ j) :
    Memory.read (Memory.writeWord m i w) j = Memory.read m j := by
  simp only [Memory.writeWord, Word.bytes, Memory.storeBytes]
  rw [Memory.read_write_other (by omega), Memory.read_write_other (by omega), Memory.read_write_other (by omega),
    Memory.read_write_other (by omega)]

theorem Memory.readWord_writeWord {size i : Nat} {m : Memory} (w : Word) (hi : i + 4 ≤ size)
    (h : Memory.wf size m = true) : Memory.readWord (Memory.writeWord m i w) i = w := by
  apply Word.eq_of_bytes
  intro j hj
  rw [Memory.byte_readWord _ _ hj, Memory.read_writeWord w _ hi h, if_pos (by omega), Nat.add_sub_cancel_left]

end Sys2Proof.Machine
end

