-- ==== Sys2Proof/Laws/State.lean ====
section
/-! SUPPORT. What each update of the state does to each field, so that no proof unfolds a record update. -/

namespace Sys2Proof.Machine

/-! `respond` -/

@[simp] theorem respond_lowPairOrder (r : Option Word) (s : State) :
    (respond r s).lowPairOrder = s.lowPairOrder := rfl
@[simp] theorem respond_operands (r : Option Word) (s : State) : (respond r s).operands = s.operands := rfl
@[simp] theorem respond_results (r : Option Word) (s : State) : (respond r s).results = s.results := rfl
@[simp] theorem respond_response (r : Option Word) (s : State) :
    (respond r s).response = some { resp := .ok, rdata := r } := rfl
@[simp] theorem respond_hostFault (r : Option Word) (s : State) : (respond r s).hostFault = s.hostFault := rfl
@[simp] theorem respond_inputs (r : Option Word) (s : State) : (respond r s).inputs = s.inputs := rfl

/-! `completeCommand` -/

@[simp] theorem completeCommand_lowPairOrder (r : Results) (s : State) :
    (completeCommand r s).lowPairOrder = s.lowPairOrder := rfl
@[simp] theorem completeCommand_operands (r : Results) (s : State) : (completeCommand r s).operands = s.operands := rfl
@[simp] theorem completeCommand_results (r : Results) (s : State) : (completeCommand r s).results = r := rfl
@[simp] theorem completeCommand_response (r : Results) (s : State) :
    (completeCommand r s).response = some { resp := .ok, rdata := none } := rfl
@[simp] theorem completeCommand_hostFault (r : Results) (s : State) :
    (completeCommand r s).hostFault = s.hostFault := rfl
@[simp] theorem completeCommand_inputs (r : Results) (s : State) : (completeCommand r s).inputs = s.inputs := rfl

/-! `storeOperands` -/

@[simp] theorem storeOperands_lowPairOrder (o : Operands) (s : State) :
    (storeOperands o s).lowPairOrder = s.lowPairOrder := rfl
@[simp] theorem storeOperands_operands (o : Operands) (s : State) : (storeOperands o s).operands = o := rfl
@[simp] theorem storeOperands_results (o : Operands) (s : State) : (storeOperands o s).results = s.results := rfl
@[simp] theorem storeOperands_response (o : Operands) (s : State) :
    (storeOperands o s).response = some { resp := .ok, rdata := none } := rfl
@[simp] theorem storeOperands_hostFault (o : Operands) (s : State) : (storeOperands o s).hostFault = s.hostFault := rfl
@[simp] theorem storeOperands_inputs (o : Operands) (s : State) : (storeOperands o s).inputs = s.inputs := rfl

/-! `refuseAccess` -/

@[simp] theorem refuseAccess_lowPairOrder (d : Dir) (s : State) :
    (refuseAccess d s).lowPairOrder = s.lowPairOrder := rfl
@[simp] theorem refuseAccess_operands (d : Dir) (s : State) : (refuseAccess d s).operands = s.operands := rfl
@[simp] theorem refuseAccess_results (d : Dir) (s : State) : (refuseAccess d s).results = s.results := rfl
@[simp] theorem refuseAccess_response (d : Dir) (s : State) :
    (refuseAccess d s).response = some { resp := .err, rdata := match d with | .read => some 0#32 | .write => none } := rfl
@[simp] theorem refuseAccess_hostFault (d : Dir) (s : State) : (refuseAccess d s).hostFault = true := rfl
@[simp] theorem refuseAccess_inputs (d : Dir) (s : State) : (refuseAccess d s).inputs = s.inputs := rfl

/-! `applyReset` -/

@[simp] theorem applyReset_lowPairOrder (s : State) :
    (applyReset s).lowPairOrder = s.lowPairOrder := rfl
@[simp] theorem applyReset_operands (s : State) : (applyReset s).operands = Operands.reset := rfl
@[simp] theorem applyReset_results (s : State) : (applyReset s).results = Results.reset := rfl
@[simp] theorem applyReset_response (s : State) : (applyReset s).response = none := rfl
@[simp] theorem applyReset_hostFault (s : State) : (applyReset s).hostFault = s.hostFault := rfl
@[simp] theorem applyReset_inputs (s : State) : (applyReset s).inputs = s.inputs := rfl

/-! `withInputs` -/

@[simp] theorem withInputs_lowPairOrder (rest : List PortInput) (s : State) :
    (withInputs rest s).lowPairOrder = s.lowPairOrder := rfl
@[simp] theorem withInputs_operands (rest : List PortInput) (s : State) :
    (withInputs rest s).operands = s.operands := rfl
@[simp] theorem withInputs_results (rest : List PortInput) (s : State) : (withInputs rest s).results = s.results := rfl
@[simp] theorem withInputs_response (rest : List PortInput) (s : State) :
    (withInputs rest s).response = s.response := rfl
@[simp] theorem withInputs_hostFault (rest : List PortInput) (s : State) :
    (withInputs rest s).hostFault = s.hostFault := rfl
@[simp] theorem withInputs_inputs (rest : List PortInput) (s : State) : (withInputs rest s).inputs = rest := rfl

end Sys2Proof.Machine
end

