-- ==== Sys2Proof/Laws/Commands.lean ====
section
/-! SUPPORT. What each command leaves in the result state, said once per function of the model; callers cite these and do not
unfold the model. -/

namespace Sys2Proof.Machine

/-- The number of significant bits, as the bound it stands for (R14). -/
theorem sigbits_le_iff (v : Word) (n : Nat) : sigbits v ≤ n ↔ v.toNat < 2 ^ n := by
  unfold sigbits
  cases hf : (List.range 32).find? (fun k => decide (v.toNat < 2 ^ k)) with
  | none =>
    have hall : ∀ k < 32, ¬v.toNat < 2 ^ k := by simpa using hf
    simp only [Option.getD_none]
    constructor
    · intro h
      exact lt_of_lt_of_le v.isLt (Nat.pow_le_pow_right (by norm_num) h)
    · intro h
      by_contra hn
      exact hall n (by omega) h
  | some k =>
    have hk : v.toNat < 2 ^ k := by simpa using List.find?_some hf
    have hmin : ∀ j < k, ¬v.toNat < 2 ^ j := by
      rw [List.find?_range_eq_some] at hf
      simpa using hf.2.2
    simp only [Option.getD_some]
    constructor
    · intro h
      exact lt_of_lt_of_le hk (Nat.pow_le_pow_right (by norm_num) h)
    · intro h
      by_contra hn
      exact hmin n (by omega) h

/-- BINARY answers the string exactly within its two bounds (R121). -/
theorem binary_ok {v : Word} {n : Nat} (hn : n ≤ 64) (hv : v.toNat < 2 ^ n) : binary v n = .ok (binaryString v n) := by
  have hs := (sigbits_le_iff v n).2 hv
  rw [binary, if_neg (by simpa [Config.bitLenMax] using hn), if_neg (by omega)]

theorem binary_bitLenRange {v : Word} {n : Nat} (hn : 64 < n) : binary v n = .error .bitLenRange := by
  rw [binary, if_pos (by simpa [Config.bitLenMax] using hn)]

theorem binary_valueTooWide {v : Word} {n : Nat} (hn : n ≤ 64) (hv : 2 ^ n ≤ v.toNat) :
    binary v n = .error .valueTooWide := by
  have hs : ¬sigbits v ≤ n := by rw [sigbits_le_iff]; omega
  rw [binary, if_neg (by simpa [Config.bitLenMax] using hn), if_pos (by omega)]

/-- The three outcomes of BINARY (R121, R162). -/
theorem binary_cases (v : Word) (n : Nat) :
    (64 < n ∧ binary v n = .error .bitLenRange) ∨
      (n ≤ 64 ∧ 2 ^ n ≤ v.toNat ∧ binary v n = .error .valueTooWide) ∨
      (n ≤ 64 ∧ v.toNat < 2 ^ n ∧ binary v n = .ok (binaryString v n)) := by
  by_cases hn : n ≤ 64
  · by_cases hv : v.toNat < 2 ^ n
    · exact .inr (.inr ⟨hn, hv, binary_ok hn hv⟩)
    · exact .inr (.inl ⟨hn, by omega, binary_valueTooWide hn (by omega)⟩)
  · exact .inl ⟨by omega, binary_bitLenRange (by omega)⟩

@[simp] theorem length_binaryString (v : Word) (n : Nat) : (binaryString v n).length = n := by
  simp [binaryString]

/-- Character `j` of the binary string is bit `n - 1 - j` (R122). -/
theorem getD_binaryString (v : Word) {n j : Nat} (hj : j < n) :
    (binaryString v n).getD j 0#8 = if v.getLsbD (n - 1 - j) then char1 else char0 := by
  simp [binaryString, hj]

/-- The twelve characters one by one (R80, R102 to R105). -/
theorem codeWord_eq (order : LowPairOrder) (o : Operands) (device : Word) (on : Bool) :
    codeWord order o.group device on =
      [Sys2Proof.Word.byte o.groupLo 0, Sys2Proof.Word.byte o.groupLo 1, Sys2Proof.Word.byte o.groupLo 2,
        Sys2Proof.Word.byte o.groupLo 3, o.groupHi,
        if device = 4#32 then char1 else charF, if device = 3#32 then char1 else charF,
        if device = 2#32 then char1 else charF,
        if device = BitVec.ofNat 32 (lowFieldDevice order 0) then char1 else char0,
        if device = BitVec.ofNat 32 (lowFieldDevice order 1) then char1 else char0,
        if on then char0 else char1, if on then char1 else char0] := by
  cases on <;> rfl

/-- The code word has twelve characters when the group has five (R80). -/
theorem length_codeWord {order : LowPairOrder} {g : List Byte} {device : Word} {on : Bool} (hg : g.length = 5) :
    (codeWord order g device on).length = 12 := by
  cases on <;> simp [codeWord, highField, lowField, commandField, hg]

theorem length_group (o : Operands) : o.group.length = 5 := rfl

/-- The tri-state string has half the characters of the binary one (R81, R125). -/
theorem length_of_triMap : ∀ {b t : List Byte}, triMap b = some t → b.length = 2 * t.length
  | [], t, h => by simp_all [triMap]
  | [_], _, h => by simp [triMap] at h
  | a :: b :: rest, t, h => by
    rw [triMap] at h
    split at h
    · next x ts hx hts =>
      obtain rfl := Option.some.inj h
      have := length_of_triMap hts
      simp only [List.length_cons]
      omega
    · cases h

/-! The results of each command, case by case. -/

theorem toBinaryResults_ok {o : Operands} (hn : o.bitLen.toNat ≤ 64) (hv : o.value.toNat < 2 ^ o.bitLen.toNat) :
    toBinaryResults o =
      { clearedResults with out := outOf (binaryString o.value o.bitLen.toNat), status := okStatus o.bitLen.toNat } := by
  rw [toBinaryResults, binary_ok hn hv]

theorem toBinaryResults_bitLenRange {o : Operands} (h : 64 < o.bitLen.toNat) :
    toBinaryResults o = raiseError .bitLenRange := by
  rw [toBinaryResults, binary_bitLenRange h]

theorem toBinaryResults_valueTooWide {o : Operands} (hn : o.bitLen.toNat ≤ 64)
    (hv : 2 ^ o.bitLen.toNat ≤ o.value.toNat) : toBinaryResults o = raiseError .valueTooWide := by
  rw [toBinaryResults, binary_valueTooWide hn hv]

theorem toTristateResults_tinLenRange {o : Operands} (h : 64 < o.tinLen.toNat) :
    toTristateResults o = raiseError .tinLenRange := by
  rw [toTristateResults, if_pos (by simpa [Config.tinMax] using h)]

theorem toTristateResults_na {o : Operands} (hm : o.tinLen.toNat ≤ 64) (h : triMap o.tinString = none) :
    toTristateResults o = { clearedResults with status := naStatus 0 } := by
  rw [toTristateResults, if_neg (by simpa [Config.tinMax] using hm), h]

theorem toTristateResults_ok {o : Operands} {t : List Byte} (hm : o.tinLen.toNat ≤ 64)
    (h : triMap o.tinString = some t) :
    toTristateResults o =
      { clearedResults with
        tout := toutOf t
        diagInfo := { triLen := BitVec.ofNat 8 (o.tinLen.toNat / 2), rawCount := 0 }
        status := okStatus 0 } := by
  rw [toTristateResults, if_neg (by simpa [Config.tinMax] using hm), h]

theorem diagResults_unknown {o : Operands} (h : o.value = 0#32) :
    diagResults o = { clearedResults with status := unknownStatus } := by
  rw [diagResults, if_pos h]

theorem diagResults_bitLenRange {o : Operands} (h0 : o.value ≠ 0#32) (h : 64 < o.bitLen.toNat) :
    diagResults o = raiseError .bitLenRange := by
  rw [diagResults, if_neg h0, binary_bitLenRange h]

theorem diagResults_valueTooWide {o : Operands} (h0 : o.value ≠ 0#32) (hn : o.bitLen.toNat ≤ 64)
    (hv : 2 ^ o.bitLen.toNat ≤ o.value.toNat) : diagResults o = raiseError .valueTooWide := by
  rw [diagResults, if_neg h0, binary_valueTooWide hn hv]

theorem diagResults_decoded {o : Operands} (h0 : o.value ≠ 0#32) (hn : o.bitLen.toNat ≤ 64)
    (hv : o.value.toNat < 2 ^ o.bitLen.toNat) :
    diagResults o = diagDecoded o.bitLen.toNat (binaryString o.value o.bitLen.toNat) := by
  rw [diagResults, if_neg h0, binary_ok hn hv]

/-- Every command's results are one of: a failure, a string in OUT alone, the sentinel, a tri-state string, "unknown
encoding". Which results a command can leave follows by citing this. -/
inductive Shape : Results → Prop where
  | failed (c : Cause) (hc : c ≠ .none) : Shape (raiseError c)
  | unknown : Shape { clearedResults with status := unknownStatus }
  | na (b : List Byte) (raw : Nat) (hb : b.length ≤ 64) (hr : raw ≤ 129) :
      Shape
        { clearedResults with
          out := outOf b, diagInfo := { triLen := 0, rawCount := BitVec.ofNat 8 raw }, status := naStatus b.length }
  | ok (b t : List Byte) (raw : Nat) (hb : b.length ≤ 64) (ht : t.length ≤ 32) (hr : raw ≤ 129) :
      Shape
        { clearedResults with
          out := outOf b, tout := toutOf t
          diagInfo := { triLen := BitVec.ofNat 8 t.length, rawCount := BitVec.ofNat 8 raw }
          status := okStatus b.length }

theorem encodeResults_shape (order : LowPairOrder) (o : Operands) : Shape (encodeResults order o) := by
  unfold encodeResults
  split_ifs
  · exact .failed _ (by decide)
  · exact .failed _ (by decide)
  · exact .failed _ (by decide)
  · have hl : (codeWord order o.group o.device o.encCtrl.turnOn).length = 12 := length_codeWord (length_group o)
    have h := Shape.ok (codeWord order o.group o.device o.encCtrl.turnOn) [] 0 (by omega) (by simp) (by simp)
    rw [hl] at h
    exact h

theorem toBinaryResults_shape (o : Operands) : Shape (toBinaryResults o) := by
  unfold toBinaryResults
  rcases binary_cases o.value o.bitLen.toNat with ⟨_, h⟩ | ⟨_, _, h⟩ | ⟨hn, _, h⟩ <;> rw [h]
  · exact .failed _ (by decide)
  · exact .failed _ (by decide)
  · have h := Shape.ok (binaryString o.value o.bitLen.toNat) [] 0 (by simpa using hn) (by simp) (by simp)
    rw [length_binaryString] at h
    exact h

theorem toTristateResults_shape (o : Operands) : Shape (toTristateResults o) := by
  unfold toTristateResults
  split_ifs with hm
  · exact .failed _ (by decide)
  · have hm' : o.tinLen.toNat ≤ 64 := by simpa [Config.tinMax] using hm
    cases ht : triMap o.tinString with
    | none => exact .na [] 0 (by simp) (by simp)
    | some t =>
      have hl : o.tinLen.toNat = 2 * t.length := by
        have := length_of_triMap ht
        rwa [Operands.tinString, Memory.length_loadBytes] at this
      have h := Shape.ok [] t 0 (by simp) (by omega) (by simp)
      rw [show t.length = o.tinLen.toNat / 2 by omega] at h
      exact h

theorem diagDecoded_shape {n : Nat} {b : List Byte} (hb : b.length = n) (hn : n ≤ 64) : Shape (diagDecoded n b) := by
  unfold diagDecoded
  subst hb
  cases ht : triMap b with
  | none => exact .na b _ hn (by omega)
  | some t =>
    have hl := length_of_triMap ht
    have h := Shape.ok b t (2 * b.length + 1) hn (by omega) (by omega)
    rw [show t.length = b.length / 2 by omega] at h
    exact h

theorem diagResults_shape (o : Operands) : Shape (diagResults o) := by
  unfold diagResults
  split_ifs
  · exact .unknown
  · rcases binary_cases o.value o.bitLen.toNat with ⟨_, h⟩ | ⟨_, _, h⟩ | ⟨hn, _, h⟩ <;> rw [h]
    · exact .failed _ (by decide)
    · exact .failed _ (by decide)
    · exact diagDecoded_shape (length_binaryString _ _) hn

/-- Every command leaves one of the shapes. -/
theorem commandResults_shape (order : LowPairOrder) (c : Command) (o : Operands) : Shape (commandResults order c o) := by
  cases c
  · exact encodeResults_shape _ _
  · exact toBinaryResults_shape _
  · exact toTristateResults_shape _
  · exact diagResults_shape _
  · exact .failed _ (by decide)

end Sys2Proof.Machine
end

