-- ==== Sys2Proof/Laws/Words.lean ====
section
/-! SUPPORT. The fields of the packed words: STATUS, DIAG_INFO and ENC_CTRL as the host reads them, and the fields of a port
transaction. -/

namespace Sys2Proof.Machine

/-- STATUS bit by bit (R25). -/
theorem Status.getLsbD_word (r : Status) (k : Nat) :
    r.word.getLsbD k =
      if k = 0 then r.ok else if k = 1 then r.na else if k = 2 then r.unknown else if k = 3 then false
      else if k < 8 then r.cause.code.getLsbD (k - 4) else if k < 16 then r.outLen.getLsbD (k - 8)
      else if k = 16 then r.done else false := by
  show BitVec.getLsbD (w := 15 + 1 + 8 + 4 + 1 + 1 + 1 + 1)
    (0#15 ++ BitVec.ofBool r.done ++ r.outLen ++ r.cause.code ++ 0#1 ++ BitVec.ofBool r.unknown ++
      BitVec.ofBool r.na ++ BitVec.ofBool r.ok) k = _
  rw [BitVec.getLsbD_append, BitVec.getLsbD_append, BitVec.getLsbD_append, BitVec.getLsbD_append,
    BitVec.getLsbD_append, BitVec.getLsbD_append, BitVec.getLsbD_append]
  by_cases h : k < 17
  · interval_cases k <;> simp
  · rw [if_neg, if_neg, if_neg, if_neg, if_neg, if_neg, if_neg, if_neg, if_neg, if_neg, if_neg, if_neg, if_neg, if_neg]
    · simp
    all_goals omega

/-- STATUS.CAUSE, bits 7:4 (R25). -/
theorem Status.cause_word (r : Status) : r.word.extractLsb' 4 4 = r.cause.code := by
  apply BitVec.eq_of_getLsbD_eq
  intro k hk
  rw [BitVec.getLsbD_extractLsb', Status.getLsbD_word, if_neg (by omega), if_neg (by omega), if_neg (by omega),
    if_neg (by omega), if_pos (by omega), Nat.add_sub_cancel_left]
  simp [hk]

/-- STATUS.OUT_LEN, bits 15:8 (R25). -/
theorem Status.outLen_word (r : Status) : r.word.extractLsb' 8 8 = r.outLen := by
  apply BitVec.eq_of_getLsbD_eq
  intro k hk
  rw [BitVec.getLsbD_extractLsb', Status.getLsbD_word, if_neg (by omega), if_neg (by omega), if_neg (by omega),
    if_neg (by omega), if_neg (by omega), if_pos (by omega), Nat.add_sub_cancel_left]
  simp [hk]

/-- STATUS bits 31:17 are reserved (R25). -/
theorem Status.reserved_word (r : Status) : r.word.extractLsb' 17 15 = 0#15 := by
  apply BitVec.eq_of_getLsbD_eq
  intro k hk
  rw [BitVec.getLsbD_extractLsb', Status.getLsbD_word, if_neg (by omega), if_neg (by omega), if_neg (by omega),
    if_neg (by omega), if_neg (by omega), if_neg (by omega), if_neg (by omega)]
  simp

/-- DIAG_INFO bit by bit (R38). -/
theorem DiagInfo.getLsbD_word (r : DiagInfo) (k : Nat) :
    r.word.getLsbD k =
      if k < 8 then r.triLen.getLsbD k else if k < 16 then r.rawCount.getLsbD (k - 8) else false := by
  show BitVec.getLsbD (w := 16 + 8 + 8) (0#16 ++ r.rawCount ++ r.triLen) k = _
  rw [BitVec.getLsbD_append, BitVec.getLsbD_append]
  by_cases h1 : k < 8
  · simp [h1]
  by_cases h2 : k < 16
  · simp [h1, h2, show k - 8 < 8 by omega]
  · simp [h1, h2]
    omega

/-- DIAG_INFO.TRI_LEN, bits 7:0 (R38). -/
theorem DiagInfo.triLen_word (r : DiagInfo) : r.word.extractLsb' 0 8 = r.triLen := by
  apply BitVec.eq_of_getLsbD_eq
  intro k hk
  simp [DiagInfo.getLsbD_word, hk]

/-- DIAG_INFO.RAW_COUNT, bits 15:8 (R38). -/
theorem DiagInfo.rawCount_word (r : DiagInfo) : r.word.extractLsb' 8 8 = r.rawCount := by
  apply BitVec.eq_of_getLsbD_eq
  intro k hk
  rw [BitVec.getLsbD_extractLsb', DiagInfo.getLsbD_word, if_neg (by omega), if_pos (by omega),
    Nat.add_sub_cancel_left]
  simp [hk]

/-- DIAG_INFO bits 31:16 are reserved (R38). -/
theorem DiagInfo.reserved_word (r : DiagInfo) : r.word.extractLsb' 16 16 = 0#16 := by
  apply BitVec.eq_of_getLsbD_eq
  intro k hk
  rw [BitVec.getLsbD_extractLsb', DiagInfo.getLsbD_word, if_neg (by omega), if_neg (by omega)]
  simp

/-- ENC_CTRL bit by bit (R32). -/
theorem EncCtrl.getLsbD_word (r : EncCtrl) (k : Nat) :
    r.word.getLsbD k = if k = 0 then r.turnOn else if k = 1 then r.groupPresent else false := by
  show BitVec.getLsbD (w := 30 + 1 + 1) (0#30 ++ BitVec.ofBool r.groupPresent ++ BitVec.ofBool r.turnOn) k = _
  rw [BitVec.getLsbD_append, BitVec.getLsbD_append]
  by_cases h : k < 2
  · interval_cases k <;> simp
  · rw [if_neg (by omega), if_neg (by omega), if_neg (by omega), if_neg (by omega)]
    simp

/-- ENC_CTRL keeps bits 1:0 of a written word (R32, R44). -/
theorem EncCtrl.word_ofWord (w : Word) : (EncCtrl.ofWord w).word = w &&& 0x3#32 := by
  apply BitVec.eq_of_getLsbD_eq
  intro k hk
  rw [EncCtrl.getLsbD_word, BitVec.getLsbD_and]
  by_cases h : k < 2
  · interval_cases k <;> simp [EncCtrl.ofWord]
  · have h3 : (0x3#32).getLsbD k = false := by
      simp only [BitVec.getLsbD_ofNat]
      rw [Nat.testBit_lt_two_pow]
      · simp
      · exact lt_of_lt_of_le (by norm_num) (Nat.pow_le_pow_right (by norm_num) (show 2 ≤ k by omega))
    rw [if_neg (by omega), if_neg (by omega), h3, Bool.and_false]

/-- The fields of a transaction (R76): the data, the offset and the direction stand at their bits. -/
theorem getLsbD_txn (d : BitVec 1) (off : Offset) (data : Word) (k : Nat) :
    BitVec.getLsbD (w := 41) (d ++ off ++ data) k =
      if k < 32 then data.getLsbD k else if k < 40 then off.getLsbD (k - 32) else d.getLsbD (k - 40) := by
  show BitVec.getLsbD (w := 1 + 8 + 32) (d ++ off ++ data) k = _
  rw [BitVec.getLsbD_append, BitVec.getLsbD_append]
  by_cases h1 : k < 32
  · simp [h1]
  by_cases h2 : k < 40
  · simp [h1, h2, show k - 32 < 8 by omega]
  · simp [h1, h2, show ¬ k - 32 < 8 by omega, show k - 32 - 8 = k - 40 by omega]

theorem txnOff_append (d : BitVec 1) (off : Offset) (data : Word) : txnOff (d ++ off ++ data) = off := by
  apply BitVec.eq_of_getLsbD_eq
  intro k hk
  rw [txnOff, BitVec.getLsbD_extractLsb', getLsbD_txn, if_neg (by omega), if_pos (by omega), Nat.add_sub_cancel_left]
  simp [hk]

theorem txnData_append (d : BitVec 1) (off : Offset) (data : Word) : txnData (d ++ off ++ data) = data := by
  apply BitVec.eq_of_getLsbD_eq
  intro k hk
  rw [txnData, BitVec.getLsbD_extractLsb', getLsbD_txn, if_pos (by omega)]
  simp [hk]

@[simp] theorem txnOff_writeTxn (off : Offset) (data : Word) : txnOff (writeTxn off data) = off :=
  txnOff_append _ _ _

@[simp] theorem txnData_writeTxn (off : Offset) (data : Word) : txnData (writeTxn off data) = data :=
  txnData_append _ _ _

@[simp] theorem txnDir_writeTxn (off : Offset) (data : Word) : txnDir (writeTxn off data) = .write := by
  rw [txnDir, writeTxn, getLsbD_txn]
  rfl

@[simp] theorem txnOff_readTxn (off : Offset) : txnOff (readTxn off) = off := txnOff_append _ _ _

@[simp] theorem txnData_readTxn (off : Offset) : txnData (readTxn off) = 0#32 := txnData_append _ _ _

@[simp] theorem txnDir_readTxn (off : Offset) : txnDir (readTxn off) = .read := by
  rw [txnDir, readTxn, getLsbD_txn]
  rfl

/-- A transaction is known by its three fields (R76). -/
theorem txn_eq_of_fields {t u : Txn} (hd : txnDir t = txnDir u) (ho : txnOff t = txnOff u)
    (hdata : txnData t = txnData u) : t = u := by
  apply BitVec.eq_of_getLsbD_eq
  intro k hk
  by_cases h1 : k < 32
  · have e := congrArg (fun b : Word => b.getLsbD k) hdata
    simpa [txnData, h1] using e
  by_cases h2 : k < 40
  · have e := congrArg (fun b : Offset => b.getLsbD (k - 32)) ho
    simpa [txnOff, show k - 32 < 8 by omega, show 32 + (k - 32) = k by omega] using e
  · obtain rfl : k = 40 := by omega
    unfold txnDir at hd
    cases ht : t.getLsbD 40 <;> cases hu : u.getLsbD 40 <;>
      first | rfl | (rw [ht, hu] at hd; exact absurd hd (by decide))

end Sys2Proof.Machine
end

