-- ==== Sys2Proof/Laws/Decode.lean ====
section
/-! SUPPORT. What the decoder answers: one lemma per part, which say once what it can do. -/

namespace Sys2Proof.Machine

/-- The four legal words are exactly those that select a command (R71, R72). -/
theorem decodeCommand_illegal_iff (w : Word) : decodeCommand w = .illegal ↔ isCommandWord w = false := by
  unfold decodeCommand isCommandWord
  split_ifs with h1 h2 h3 h4 <;> simp [*]

/-- A write is decoded as itself unless it writes a legal command word to CMD. -/
theorem decodeWrite_self {off : Offset} {data : Word} (h : off ≠ 0x00#8 ∨ isCommandWord data = false) :
    decodeWrite off data = .wr32 off data := by
  unfold decodeWrite
  by_cases h0 : off = 0x00#8
  · rw [if_pos h0, (decodeCommand_illegal_iff data).2 (h.resolve_left (fun hn => hn h0))]
  · rw [if_neg h0]

/-- What a write decodes to: the write itself, or a command whose word was written to CMD. -/
theorem decodeWrite_cases (off : Offset) (data : Word) :
    (decodeWrite off data = .wr32 off data ∧ (off ≠ 0x00#8 ∨ isCommandWord data = false)) ∨
      (off = 0x00#8 ∧
        ((data = 0x00000001#32 ∧ decodeWrite off data = .encode) ∨
          (data = 0x00000002#32 ∧ decodeWrite off data = .toBinary) ∨
          (data = 0x00000003#32 ∧ decodeWrite off data = .toTristate) ∨
          (data = 0x00000004#32 ∧ decodeWrite off data = .diag))) := by
  by_cases h : off ≠ 0x00#8 ∨ isCommandWord data = false
  · exact .inl ⟨decodeWrite_self h, h⟩
  · obtain ⟨rfl, hw⟩ : off = 0x00#8 ∧ isCommandWord data = true := by simpa using h
    refine .inr ⟨rfl, ?_⟩
    simp only [isCommandWord, Bool.or_eq_true, beq_iff_eq] at hw
    rcases hw with ((rfl | rfl) | rfl) | rfl <;> decide

/-- An aligned 32-bit access is decoded by its direction (R51, R76). -/
theorem decodeAccess_ok {t : Txn} (h : wordAligned (txnOff t) = true) :
    decodeAccess .w32 t =
      .ok (match txnDir t with | .write => decodeWrite (txnOff t) (txnData t) | .read => .rd32 (txnOff t)) := by
  unfold decodeAccess
  rw [if_neg (by simp), if_neg (by simp [h])]
  cases txnDir t <;> rfl

/-- The accesses the port refuses are exactly the narrow and the misaligned ones (R51). -/
theorem decodeAccess_error_iff (width : Width) (t : Txn) :
    (∃ e, decodeAccess width t = .error e) ↔ width ≠ .w32 ∨ wordAligned (txnOff t) = false := by
  unfold decodeAccess
  split_ifs with h1 h2
  · simp [h1]
  · simp [h2]
  · cases txnDir t <;> simp_all

end Sys2Proof.Machine
end

