-- ==== Sys2Proof/Laws/Exec.lean ====
section
/-! SUPPORT. What one instruction and one step can do, said once: four cases for `exec`, five for `step`. -/

namespace Sys2Proof.Machine
open Sys2Proof.Safety

/-- The command an instruction runs, for those that run one. -/
def commandOf : Instr → Command
  | .encode => .encode
  | .toBinary => .toBinary
  | .toTristate => .toTristate
  | .diag => .diag
  | .wr32 _ data => decodeCommand data
  | .rd32 _ => .illegal

/-- An instruction that runs a command replaces the results by that command's, and answers OK (R24, R56). -/
theorem exec_command {i : Instr} (h : runsCommand i = true) (s : State) :
    exec i s = .next (completeCommand (commandResults s.lowPairOrder (commandOf i) s.operands) s) := by
  cases i with
  | encode => rfl
  | toBinary => rfl
  | toTristate => rfl
  | diag => rfl
  | wr32 off data =>
    have h0 : off = 0x00#8 := by simpa [runsCommand] using h
    subst h0
    rfl
  | rd32 off => simp [runsCommand] at h

/-- A write elsewhere stores the word (R55). -/
theorem exec_wr32_store {off : Offset} (h0 : off ≠ 0x00#8) (ha : wordAligned off = true) (data : Word) (s : State) :
    exec (.wr32 off data) s = .next (storeOperands (writeLocation data s.operands (locate off)) s) := by
  show execWr32 off data s = _
  rw [execWr32, if_pos ha, writeWord, if_neg h0]

/-- A misaligned write is refused (R51). -/
theorem exec_wr32_refused {off : Offset} (ha : wordAligned off = false) (data : Word) (s : State) :
    exec (.wr32 off data) s = .next (refuseAccess .write s) := by
  show execWr32 off data s = _
  rw [execWr32, if_neg (by simp [ha])]

/-- A read answers the word as it stands (R57). -/
theorem exec_rd32 {off : Offset} (ha : wordAligned off = true) (s : State) :
    exec (.rd32 off) s = .next (respond (some (readWord s off)) s) := by
  show execRd32 off s = _
  rw [execRd32, if_pos ha]

/-- A misaligned read is refused (R51). -/
theorem exec_rd32_refused {off : Offset} (ha : wordAligned off = false) (s : State) :
    exec (.rd32 off) s = .next (refuseAccess .read s) := by
  show execRd32 off s = _
  rw [execRd32, if_neg (by simp [ha])]

/-- What one instruction can do: run a command, store a word, read a word, or be refused. -/
theorem exec_cases (i : Instr) (s : State) :
    (runsCommand i = true ∧ exec i s = .next (completeCommand (commandResults s.lowPairOrder (commandOf i) s.operands) s)) ∨
      (∃ off data, i = .wr32 off data ∧ off ≠ 0x00#8 ∧ wordAligned off = true ∧
        exec i s = .next (storeOperands (writeLocation data s.operands (locate off)) s)) ∨
      (∃ off, i = .rd32 off ∧ wordAligned off = true ∧ exec i s = .next (respond (some (readWord s off)) s)) ∨
      (∃ d, runsCommand i = false ∧ exec i s = .next (refuseAccess d s)) := by
  by_cases hc : runsCommand i = true
  · exact .inl ⟨hc, exec_command hc s⟩
  · cases i with
    | encode | toBinary | toTristate | diag => exact absurd rfl hc
    | wr32 off data =>
      have h0 : off ≠ 0x00#8 := by simpa [runsCommand] using hc
      cases ha : wordAligned off
      · exact .inr (.inr (.inr ⟨.write, by simpa using hc, exec_wr32_refused ha data s⟩))
      · exact .inr (.inl ⟨off, data, rfl, h0, ha, exec_wr32_store h0 ha data s⟩)
    | rd32 off =>
      cases ha : wordAligned off
      · exact .inr (.inr (.inr ⟨.read, by simpa using hc, exec_rd32_refused ha s⟩))
      · exact .inr (.inr (.inl ⟨off, rfl, ha, exec_rd32 ha s⟩))

/-- What one step can do. -/
theorem step_cases (s : State) :
    (s.inputs = [] ∧ step s = .next s) ∨
      (∃ rest, s.inputs = .reset :: rest ∧ step s = .next (applyReset (withInputs rest s))) ∨
      (∃ w t rest, s.inputs = .resetDuring w t :: rest ∧ step s = .fault .resetDuringTransaction) ∨
      (∃ w t rest i, s.inputs = .access w t :: rest ∧ decodeAccess w t = .ok i ∧
        step s = exec i (withInputs rest s)) ∨
      (∃ w t rest e, s.inputs = .access w t :: rest ∧ decodeAccess w t = .error e ∧
        step s = .next (refuseAccess (txnDir t) (withInputs rest s))) := by
  unfold step
  split
  · next h => exact .inl ⟨h, rfl⟩
  · next rest h => exact .inr (.inl ⟨rest, h, rfl⟩)
  · next w t rest h => exact .inr (.inr (.inl ⟨w, t, rest, h, rfl⟩))
  · next w t rest h =>
    cases hd : decodeAccess w t with
    | ok i => exact .inr (.inr (.inr (.inl ⟨w, t, rest, i, h, hd, rfl⟩)))
    | error e => exact .inr (.inr (.inr (.inr ⟨w, t, rest, e, h, hd, rfl⟩)))

/-- Every read-only register and buffer ignores a write, and TIN takes it at the word's index: what a write can do to the
operands. -/
theorem tin_writeLocation (w : Word) (o : Operands) (l : Location) :
    (writeLocation w o l).tin = match l with | .tin i => Memory.writeWord o.tin i w | _ => o.tin := by
  cases l <;> rfl

/-- No register below TIN is a TIN word (R23). -/
theorem locateRegister_ne_tin (off : Offset) (i : Nat) : locateRegister off ≠ .tin i := by
  unfold locateRegister
  split <;> exact Location.noConfusion

/-- The TIN words of the address map are the sixteen from 0x40 on (R23, R40). -/
theorem locate_tin {off : Offset} {i : Nat} (h : locate off = .tin i) : off.toNat = 0x40 + i ∧ i < 64 := by
  unfold locate at h
  split_ifs at h
  · exact absurd h (locateRegister_ne_tin off i)
  · have := Location.tin.inj h
    omega

/-- An aligned TIN word lies inside TIN. -/
theorem locate_tin_bound {off : Offset} (ha : wordAligned off = true) {i : Nat} (h : locate off = .tin i) :
    i % 4 = 0 ∧ i + 4 ≤ 64 := by
  obtain ⟨h1, h2⟩ := locate_tin h
  have h4 : off.toNat % 4 = 0 := by
    have e : off.extractLsb' 0 2 = 0#2 := by simpa [wordAligned] using ha
    have := congrArg BitVec.toNat e
    simpa [BitVec.extractLsb'_toNat] using this
  omega

/-- A write keeps TIN canonical (R40). -/
theorem writeLocation_tin_wf {off : Offset} (ha : wordAligned off = true) (w : Word) {o : Operands}
    (h : Memory.wf 64 o.tin = true) : Memory.wf 64 (writeLocation w o (locate off)).tin = true := by
  rw [tin_writeLocation]
  cases hl : locate off with
  | tin i => exact Memory.wf_writeWord w (locate_tin_bound ha hl).2 h
  | _ => exact h

/-- Every command's buffers are canonical and inside their sizes (R41, R42). -/
theorem Shape.canonical {r : Results} (h : Shape r) : Memory.wf 64 r.out = true ∧ Memory.wf 32 r.tout = true := by
  cases h with
  | failed c hc => exact ⟨rfl, rfl⟩
  | unknown => exact ⟨rfl, rfl⟩
  | na b raw hb hr => exact ⟨Memory.wf_storeBytes_nil hb, rfl⟩
  | ok b t raw hb ht hr => exact ⟨Memory.wf_storeBytes_nil hb, Memory.wf_storeBytes_nil ht⟩

/-- A short string's length survives its 8-bit register field (R132). -/
theorem toNat_ofNat_length {n : Nat} (h : n < 256) : (BitVec.ofNat 8 n).toNat = n := by
  simpa using Nat.mod_eq_of_lt h

end Sys2Proof.Machine
end

