-- ==== Sys2Proof/Laws/PerInstr.lean ====
section
/-! SUPPORT. One statement about every instruction as syntax: the control bits of the transaction that carries it, DIR (R76),
the two low bits of OFF (R51), and DATA written as 0 in a read (R76). -/

namespace Sys2Proof.Laws.ControlBits
open Sys2Proof.Machine

/-- What the control bits of a well-formed instruction's transaction are. -/
def Statement (i : Instr) : Prop :=
  i.wellFormed = true →
    wordAligned (txnOff (encodeTxn i)) = true ∧
      match i with
      | .rd32 _ => txnDir (encodeTxn i) = .read ∧ txnData (encodeTxn i) = 0#32
      | _ => txnDir (encodeTxn i) = .write

theorem encode : Statement .encode := fun _ => by decide

theorem toBinary : Statement .toBinary := fun _ => by decide

theorem toTristate : Statement .toTristate := fun _ => by decide

theorem diag : Statement .diag := fun _ => by decide

theorem wr32 (off : Offset) (data : Word) : Statement (.wr32 off data) := by
  intro h
  have ha : wordAligned off = true := by
    simp only [Instr.wellFormed, Bool.and_eq_true] at h
    exact h.1
  exact ⟨by rw [encodeTxn, txnOff_writeTxn]; exact ha, txnDir_writeTxn off data⟩

theorem rd32 (off : Offset) : Statement (.rd32 off) := fun h =>
  ⟨by rw [encodeTxn, txnOff_readTxn]; exact h, txnDir_readTxn off, txnData_readTxn off⟩

end Sys2Proof.Laws.ControlBits
end

