-- ==== Sys2Proof/Laws/Registers.lean ====
section
/-! SUPPORT. The register map in lemmas: what an offset names, what it reads as, and
which instruction runs which command. -/

namespace Sys2Proof.Machine
open Sys2Proof.Safety

/-- STATUS reads as its word (R25). -/
theorem readWord_status (s : State) : readWord s 0x04#8 = s.results.status.word := rfl

/-- DIAG_INFO reads as its word (R38). -/
theorem readWord_diag (s : State) : readWord s 0x24#8 = s.results.diagInfo.word := rfl

/-- An offset below 256 is itself. -/
theorem toNat_ofNat_offset {n : Nat} (h : n < 256) : (BitVec.ofNat 8 n).toNat = n := by simp; omega

/-- Alignment as R51 states it, on the offset as a number. -/
theorem wordAligned_iff (off : Offset) : wordAligned off = true ↔ off.toNat % 4 = 0 := by
  have key : (off.extractLsb' 0 2).toNat = off.toNat % 4 := by simp [BitVec.extractLsb'_toNat]
  rw [wordAligned, beq_iff_eq]
  constructor
  · intro h; rw [h] at key; simpa using key.symm
  · intro h; apply BitVec.eq_of_toNat_eq; rw [key, h]; rfl

/-- Alignment as R76 places it in a transaction. -/
theorem wordAligned_txnOff_iff (x : Txn) :
    wordAligned (txnOff x) = true ↔ x.getLsbD 32 = false ∧ x.getLsbD 33 = false := by
  rw [wordAligned, beq_iff_eq]
  constructor
  · intro h
    have e0 := congrArg (fun b : BitVec 2 => b.getLsbD 0) h
    have e1 := congrArg (fun b : BitVec 2 => b.getLsbD 1) h
    simp only [txnOff, BitVec.getLsbD_extractLsb'] at e0 e1
    simpa using ⟨by simpa using e0, by simpa using e1⟩
  · rintro ⟨h0, h1⟩
    apply BitVec.eq_of_getLsbD_eq; intro k hk
    simp only [txnOff, BitVec.getLsbD_extractLsb']
    interval_cases k
    · simpa using h0
    · simpa using h1

/-- The words of a buffer are aligned. -/
theorem wordAligned_ofNat (n : Nat) (k : Nat) (hk : n + 4 * k < 256) (hn : n % 4 = 0) :
    wordAligned (BitVec.ofNat 8 (n + 4 * k)) = true := by
  rw [wordAligned_iff, toNat_ofNat_offset hk]; omega

/-- The implemented byte of an 8-bit register reads back (R44). -/
theorem setWidth_low (b : Byte) : (b.setWidth 32).extractLsb' 0 8 = b := by
  apply BitVec.eq_of_getLsbD_eq; intro k hk; simp [hk]; omega

/-- The reserved bits above an 8-bit register read 0 (R44). -/
theorem setWidth_high (b : Byte) : (b.setWidth 32).extractLsb' 8 24 = 0#24 := by
  apply BitVec.eq_of_getLsbD_eq; intro k hk; simp

/-- An aligned read returns the word the register map gives. -/
theorem readsAs_of_readWord {s : State} {off : Offset} {w : Word} (ha : wordAligned off = true)
    (h : readWord s off = w) : ReadsAs s off w :=
  ⟨_, exec_rd32 ha s, by rw [← h]; rfl⟩

/-- A read is accepted with `w` exactly when its offset is aligned and names `w`. -/
theorem readsAs_iff {s : State} {off : Offset} {w : Word} :
    ReadsAs s off w ↔ wordAligned off = true ∧ readWord s off = w := by
  constructor
  · rintro ⟨t, h1, h2⟩
    cases ha : wordAligned off
    · rw [exec_rd32_refused ha] at h1
      cases h1
      simp at h2
    · rw [exec_rd32 ha] at h1
      cases h1
      simp at h2
      exact ⟨rfl, h2⟩
  · rintro ⟨h1, h2⟩; exact readsAs_of_readWord h1 h2

/-- The sixteen words of TIN (R40). -/
theorem locate_tin_offset (k : Nat) (hk : k < 16) : locate (BitVec.ofNat 8 (0x40 + 4 * k)) = .tin (4 * k) := by
  interval_cases k <;> rfl

/-- The sixteen words of OUT (R41). -/
theorem locate_out_offset (k : Nat) (hk : k < 16) : locate (BitVec.ofNat 8 (0x80 + 4 * k)) = .out (4 * k) := by
  interval_cases k <;> rfl

/-- The eight words of TOUT (R42). -/
theorem locate_tout_offset (k : Nat) (hk : k < 8) : locate (BitVec.ofNat 8 (0xC0 + 4 * k)) = .tout (4 * k) := by
  interval_cases k <;> rfl

/-- The reserved offsets of R23. -/
theorem locate_reserved (off : Offset) (h : (0x28 ≤ off.toNat ∧ off.toNat < 0x40) ∨ 0xE0 ≤ off.toNat) :
    locate off = .reserved off := by
  unfold locate
  rcases h with ⟨h1, h2⟩ | h
  · rw [if_pos (by omega)]
    unfold locateRegister
    split <;> first | omega | rfl
  · repeat rw [if_neg (by omega)]

/-- Each offset has one meaning (R23). -/
theorem offsetOf_locate : ∀ o : Offset, offsetOf (locate o) = o := by decide

/-- Two offsets never name one word (R23). -/
theorem locate_inj {off off' : Offset} (h : locate off = locate off') : off = off' := by
  rw [← offsetOf_locate off, ← offsetOf_locate off', h]

/-- The operand words read the same where the operands are the same (R23). -/
theorem readWord_congr {s t : State} (ho : t.operands = s.operands) (off : Offset) (h : off.toNat < 0x80)
    (h4 : off ≠ 0x04#8) (h24 : off ≠ 0x24#8) : readWord t off = readWord s off := by
  have : ∀ o : Offset, o.toNat < 0x80 → o ≠ 0x04#8 → o ≠ 0x24#8 →
      (match locate o with | .status | .diagInfo | .out _ | .tout _ => false | _ => true) = true := by decide
  have := this off h h4 h24
  rw [readWord, readWord]
  cases hl : locate off <;> rw [hl] at this <;> first | (cases this; done) | (simp only [readLocation, ho])

/-- A write repeated is one write (R57). -/
theorem writeLocation_idem (o : Operands) (w : Word) (off : Offset) (ha : wordAligned off = true)
    (hb : Memory.wf 64 o.tin = true) :
   writeLocation w (writeLocation w o (locate off)) (locate off) = writeLocation w o (locate off) := by
  cases h : locate off with
  | tin i =>
    have b := (locate_tin_bound ha h).2
    have w1 := Memory.wf_writeWord w b hb
    have : Memory.writeWord (Memory.writeWord o.tin i w) i w = Memory.writeWord o.tin i w := by
      apply Memory.ext (Memory.wf_writeWord w b w1) w1
      intro j
      rw [Memory.read_writeWord w j b w1, Memory.read_writeWord w j b hb]
      split_ifs <;> rfl
    simp only [writeLocation, this]
  | _ => rfl

/-- Writes at two offsets commute (R185). -/
theorem writeLocation_comm (o : Operands) (w w' : Word) (off off' : Offset) (ha : wordAligned off = true)
    (ha' : wordAligned off' = true) (hne : off ≠ off') (hb : Memory.wf 64 o.tin = true) :
    writeLocation w' (writeLocation w o (locate off)) (locate off') =
      writeLocation w (writeLocation w' o (locate off')) (locate off) := by
  have hl : locate off ≠ locate off' := fun h => hne (locate_inj h)
  cases h : locate off with
  | tin i =>
    cases h' : locate off' with
    | tin j =>
      have b := locate_tin_bound ha h
      have b' := locate_tin_bound ha' h'
      have hij : i ≠ j := fun e => hl (by rw [h, h', e])
      have w1 := Memory.wf_writeWord w b.2 hb
      have w2 := Memory.wf_writeWord w' b'.2 hb
      have : Memory.writeWord (Memory.writeWord o.tin i w) j w' =
          Memory.writeWord (Memory.writeWord o.tin j w') i w := by
        apply Memory.ext (Memory.wf_writeWord w' b'.2 w1) (Memory.wf_writeWord w b.2 w2)
        intro k
        rw [Memory.read_writeWord _ k b'.2 w1, Memory.read_writeWord _ k b.2 w2,
            Memory.read_writeWord _ k b.2 hb, Memory.read_writeWord _ k b'.2 hb]
        split_ifs <;> first | rfl | omega
      simp only [writeLocation, this]
    | _ => rfl
  | _ => cases h' : locate off' <;> first | rfl | exact absurd (h.trans h'.symm) hl

/-- The five outcomes of the whole-word match (R73). -/
theorem decodeCommand_cases (w : Word) :
    (w = 1#32 ∧ decodeCommand w = .encode) ∨ (w = 2#32 ∧ decodeCommand w = .toBinary) ∨
      (w = 3#32 ∧ decodeCommand w = .toTristate) ∨ (w = 4#32 ∧ decodeCommand w = .diag) ∨
      (w ≠ 4#32 ∧ decodeCommand w = .illegal) := by
  unfold decodeCommand
  split_ifs <;> simp_all

/-- The instructions of each command (R71, R72). -/
theorem runsCommand_cases {i : Instr} (hc : runsCommand i = true) :
    (commandOf i = .encode ∧ (i = .encode ∨ i = .wr32 0 1)) ∨
      (commandOf i = .toBinary ∧ (i = .toBinary ∨ i = .wr32 0 2)) ∨
      (commandOf i = .toTristate ∧ (i = .toTristate ∨ i = .wr32 0 3)) ∨
      (commandOf i = .diag ∧ (i = .diag ∨ i = .wr32 0 4)) ∨ (commandOf i = .illegal ∧ ∃ w, i = .wr32 0 w ∧ w ≠ 4#32) := by
  cases i with
  | wr32 off data =>
    have h0 : off = 0x00#8 := by simpa [runsCommand] using hc
    subst h0
    rcases decodeCommand_cases data with ⟨h, e⟩ | ⟨h, e⟩ | ⟨h, e⟩ | ⟨h, e⟩ | ⟨h, e⟩
    · subst h; simp [commandOf, e]
    · subst h; simp [commandOf, e]
    · subst h; simp [commandOf, e]
    · subst h; simp [commandOf, e]
    · simp [commandOf, e, h]
  | rd32 off => cases hc
  | _ => simp [commandOf]

/-- Only an aligned 32-bit write to CMD runs a command (R24). -/
theorem decodeAccess_command {x : Txn} {w : Width} {i : Instr} (hd : decodeAccess w x = .ok i)
    (hc : runsCommand i = true) : w = .w32 ∧ txnDir x = .write ∧ txnOff x = 0x00#8 := by
  have hne : ¬∃ e, decodeAccess w x = .error e := by rw [hd]; rintro ⟨e, he⟩; cases he
  rw [decodeAccess_error_iff] at hne
  push Not at hne
  obtain ⟨rfl, ha⟩ := hne
  have ha' : wordAligned (txnOff x) = true := by simpa using ha
  rw [decodeAccess_ok ha'] at hd
  cases hdir : txnDir x <;> rw [hdir] at hd <;> simp only [Except.ok.injEq] at hd
  · subst hd; cases hc
  · refine ⟨rfl, rfl, ?_⟩
    rcases decodeWrite_cases (txnOff x) (txnData x) with ⟨h1, _⟩ | ⟨h0, _⟩
    · rw [h1] at hd; subst hd; simpa [runsCommand] using hc
    · exact h0

end Sys2Proof.Machine
end

