-- ==== Sys2Proof/Laws/Strings.lean ====
section
/-! SUPPORT. Lemmas about the checks and the strings of the four commands, in the terms of the statements. -/

namespace Sys2Proof.Machine
open Sys2Proof.Safety

/-- An empty buffer is blank. -/
theorem blank_nil : Blank [] := fun _ => rfl

/-- What `raise Error` leaves is what a failed command is (R161). -/
theorem failedWith_raiseError (c : Cause) : FailedWith c (raiseError c) := ⟨rfl, rfl, blank_nil, blank_nil⟩

/-- A failed command left `raise Error` of some cause. -/
theorem Shape.of_failed {r : Results} (h : Shape r) (hk : r.status.ok = false) :
    ∃ c, c ≠ .none ∧ r = raiseError c := by
  cases h with
  | failed c hc => exact ⟨c, hc, rfl⟩
  | _ => cases hk

/-- Every command sets DONE (R31). -/
theorem Shape.done {r : Results} (h : Shape r) : r.status.done = true := by cases h <;> rfl

/-- The signed range check of R107. -/
theorem deviceInRange_iff (d : Word) : deviceInRange d = true ↔ 0 ≤ d.toInt ∧ d.toInt < 5 := by
  simp only [deviceInRange, Config.kMaxSockets, Bool.and_eq_true, Bool.not_eq_true', BitVec.slt]
  have e5 : (BitVec.ofNat 32 5).toInt = 5 := by decide
  have e0 : (0#32).toInt = 0 := by decide
  simp only [e5, e0, decide_eq_true_eq, decide_eq_false_iff_not, not_lt]

/-- A group is short exactly when some character is the terminator (R107). -/
theorem terminator_mem_group (o : Operands) : terminator ∈ o.group ↔ ∃ k < 5, groupChar o k = 0#8 := by
  simp only [Operands.group, List.mem_cons, List.not_mem_nil, or_false, terminator]
  constructor
  · rintro (h | h | h | h | h)
    exacts [⟨0, by decide, h.symm⟩, ⟨1, by decide, h.symm⟩, ⟨2, by decide, h.symm⟩, ⟨3, by decide, h.symm⟩,
      ⟨4, by decide, h.symm⟩]
  · rintro ⟨k, hk, h⟩
    interval_cases k
    exacts [.inl h.symm, .inr (.inl h.symm), .inr (.inr (.inl h.symm)), .inr (.inr (.inr (.inl h.symm))),
      .inr (.inr (.inr (.inr h.symm)))]

/-- A selector is a device when its signed value is (R103). -/
theorem device_eq_iff (d : Word) (n : Nat) (hn : n < 5) : d = BitVec.ofNat 32 n ↔ d.toInt = n := by
  constructor
  · rintro rfl; interval_cases n <;> decide
  · intro h; apply BitVec.eq_of_toInt_eq; rw [h]; interval_cases n <;> decide

/-- The success path of ENCODE (R101). -/
theorem encodeResults_ok (order) (o : Operands) (hp : o.encCtrl.groupPresent = true) (h0 : 0 ≤ o.device.toInt)
    (h5 : o.device.toInt < 5) (hg : ∀ k < 5, groupChar o k ≠ 0#8) :
    encodeResults order o =
      { clearedResults with
        out := outOf (codeWord order o.group o.device o.encCtrl.turnOn)
        status := okStatus Config.codeLen } := by
  unfold encodeResults
  rw [if_neg (by simp [hp]), if_neg (by simp [(deviceInRange_iff _).2 ⟨h0, h5⟩]), if_neg]
  · rw [terminator_mem_group]; push Not; exact hg

/-- A value below `2^n` has no bit from `n` on (R14). -/
theorem getLsbD_of_lt_two_pow {v : Word} {n b : Nat} (hv : v.toNat < 2^n) (hb : n ≤ b) : v.getLsbD b = false := by
  rw [BitVec.getLsbD, Nat.testBit_lt_two_pow (lt_of_lt_of_le hv (Nat.pow_le_pow_right (by norm_num) hb))]

/-- The value of a string split in two (R53). -/
theorem binaryValue_append (a b : List Byte) :
    binaryValue (a ++ b) = binaryValue a * 2 ^ b.length + binaryValue b := by
  have gen : ∀ (b : List Byte) (x : Nat),
      b.foldl (fun a c => 2 * a + if c = char1 then 1 else 0) x = x * 2 ^ b.length + binaryValue b := by
    intro b
    induction b with
    | nil => intro x; simp [binaryValue]
    | cons c b ih =>
      intro x
      have e : binaryValue (c :: b) = (2 * 0 + if c = char1 then 1 else 0) * 2 ^ b.length + binaryValue b := ih _
      rw [List.foldl_cons, ih, e, List.length_cons, pow_succ]
      ring
  rw [binaryValue, List.foldl_append, gen]; rfl

/-- The last character is bit 0 (R122). -/
theorem binaryString_succ (v : Word) (n : Nat) : binaryString v (n+1) =
    binaryString (v >>> 1) n ++ [if v.getLsbD 0 then char1 else char0] := by
  apply List.ext_getElem (by simp)
  intro i h1 h2
  have hi : i < n + 1 := by simpa using h1
  by_cases h : i < (binaryString (v >>> 1) n).length
  · rw [List.getElem_append_left h]
    simp only [binaryString, List.getElem_map, List.getElem_range]
    have h' : i < n := by simpa using h
    rw [BitVec.getLsbD_ushiftRight, show 1 + (n - 1 - i) = n + 1 - 1 - i by omega]
  · have h' : i = n := by simp at h; omega
    subst h'
    rw [List.getElem_append_right (by simp)]
    simp [binaryString]

/-- A valid pair has its symbol (R75). -/
theorem validPair_iff (a b : Byte) : ValidPair a b ↔ triSymbol a b = some (pairSymbol a b) := by
  unfold ValidPair triSymbol pairSymbol char0 char1 charF
  split_ifs <;> simp_all
  rename_i h _; exact absurd (h.1.symm.trans h.2) (by decide)

/-- Only a valid pair has a symbol (R125). -/
theorem triSymbol_eq_none_iff (a b : Byte) : ¬ValidPair a b ↔ triSymbol a b = none := by
  unfold ValidPair triSymbol char0 char1 charF
  split_ifs <;> simp_all

/-- TriMap takes one pair at a time (R125). -/
theorem triMap_cons (a b : Byte) (rest) : triMap (a :: b :: rest) = (triSymbol a b).bind fun t =>
      (triMap rest).map (t :: ·) := by
  rw [triMap]; cases triSymbol a b <;> cases triMap rest <;> rfl

/-- A loaded string holds the bytes of the buffer. -/
theorem getD_loadBytes (m : Memory) {n i : Nat} (h : i < n) : (Memory.loadBytes m n).getD i 0#8 =
    Memory.read m i := by
  simp [Memory.loadBytes, h]

/-- T2B writes only binary characters (R129). -/
theorem triToBinary_chars (t : List Byte) : ∀ c ∈ triToBinary t, c = char0 ∨ c = char1 := by
  intro c hc
  simp only [triToBinary, List.mem_flatMap] at hc
  obtain ⟨a, _, hc⟩ := hc
  unfold symbolPair at hc
  split_ifs at hc <;> simp at hc <;> tauto

/-- T2B writes two characters a symbol (R129). -/
theorem length_triToBinary (t : List Byte) : (triToBinary t).length = 2 * t.length := by
  induction t with
  | nil => rfl
  | cons a t ih =>
    unfold triToBinary at ih ⊢
    rw [List.flatMap_cons, List.length_append, ih, List.length_cons]
    have : (symbolPair a).length = 2 := by unfold symbolPair; split_ifs <;> rfl
    omega

end Sys2Proof.Machine
end

