-- ==== Sys2Proof/Tests/Slice0.lean ====
section
/-! SUPPORT. Tests, each expected word taken from spec/95_test_vectors.md or written out from an encoding of spec/30_encoding.md,
and for every statement with hypotheses a state that meets them (the theorems named witness_). -/

namespace Sys2Proof.Tests
open Sys2Proof.Machine Sys2Proof.Safety

/-! Small states and what one instruction or one step makes of them. -/

/-- Reset with these operands. -/
def withOperands (o : Operands) : State := { State.reset with operands := o }

/-- Group "ABCDE" present, the command "on", and a selector (95_test_vectors 2.1). -/
def abcde (device : Word) : State :=
  withOperands
    { Operands.reset with
      encCtrl := { turnOn := true, groupPresent := true }, groupLo := 0x44434241#32, groupHi := 0x45#8, device := device }

/-- A captured value with its bit count. -/
def captured (value bitLen : Word) : State := withOperands { Operands.reset with value := value, bitLen := bitLen }

/-- TIN holding a string, and TIN_LEN. -/
def tinHolds (str : List Byte) (len : Byte) : State :=
  withOperands { Operands.reset with tin := Memory.storeBytes [] 0 str, tinLen := len }

/-- The same state of a block whose LOW_PAIR_ORDER is FORMULA (R9). -/
def underFormula (s : State) : State := { s with lowPairOrder := .formula }

/-- The state an outcome answers, if it answers one. -/
def nextOf : Host.Outcome State Fault Refusal → Option State
  | .next t => some t
  | .fault _ => none
  | .refused _ => none

/-- The words at some offsets after an instruction. -/
def wordsAfter (i : Instr) (s : State) (offs : List Offset) : Option (List Word) :=
  (nextOf (exec i s)).map fun t => offs.map (readWord t)

/-- The word at an offset and the response after a step that serves one access. -/
def served (width : Width) (x : Txn) (s : State) : Option State :=
  nextOf (step { s with inputs := [.access width x] })

/-! WellFormed: an ill-formed term for each check (R51, R24). -/

theorem test_misaligned_write_is_ill_formed : (Instr.wr32 0x41#8 0#32).wellFormed = false := by decide

theorem test_misaligned_read_is_ill_formed : (Instr.rd32 0x06#8).wellFormed = false := by decide

theorem test_command_word_as_plain_write_is_ill_formed :
    (Instr.wr32 0x00#8 0x00000003#32).wellFormed = false ∧ (Instr.wr32 0x00#8 0x00000005#32).wellFormed = true := by
  decide

/-! Decoding: words written out from R70, R71 and R76 (`DIR << 40 | OFF << 32 | DATA`). -/

theorem test_decode_encode : decodeTableWord 32 0x00000001 = some .encode := by decide

theorem test_decode_toBinary : decodeTableWord 32 0x00000002 = some .toBinary := by decide

theorem test_decode_toTristate : decodeTableWord 32 0x00000003 = some .toTristate := by decide

theorem test_decode_diag : decodeTableWord 32 0x00000004 = some .diag := by decide

/-- The write of GROUP_LO of program P1: DIR 1, OFF 0x10, DATA 0x44434241. -/
theorem test_decode_wr32 :
    decodeTableWord 48 0x11044434241 = some (.wr32 0x10#8 0x44434241#32) ∧
      decodeAccess .w32 0x10C00000004#41 = .ok (.wr32 0x0C#8 0x00000004#32) := by decide

/-- The read of STATUS: DIR 0, OFF 0x04. -/
theorem test_decode_rd32 :
    decodeTableWord 48 0x00400000000 = some (.rd32 0x04#8) ∧
      decodeAccess .w32 0x08000000000#41 = .ok (.rd32 0x80#8) := by decide

/-- Each legal command word is also a write to CMD (R24, R84); a word outside the format is none (R70, R76). -/
theorem test_decode_limits :
    decodeTableWord 48 0x10000000004 = some .diag ∧ decodeTableWord 48 0x10100000004 = none ∧
      decodeTableWord 32 0x100000001 = none ∧ decodeTableWord 48 0x20000000000 = none := by decide

/-- Only the 32-bit aligned access is taken (R51). -/
theorem test_decode_refuses :
    decodeAccess .w8 0x10000000001#41 = .error .wrongWidth ∧ decodeAccess .w32 0x10300000001#41 = .error .misaligned := by
  decide

theorem test_encodeTxn : encodeTxn .encode = 0x10000000001#41 ∧ encodeTxn (.rd32 0xC4#8) = 0x0C400000000#41 := by decide

/-- The word placed for the next step is the one it runs. -/
theorem test_withFetchWord :
    step (State.reset.withFetchWord 32 0x00000004) = exec .diag State.reset ∧
      step (State.reset.withFetchWord 48 0x00400000000) = exec (.rd32 0x04#8) State.reset := ⟨rfl, rfl⟩

/-! One instruction on a small state (95_test_vectors 2.1 to 2.7). -/

/-- "ABCDEFFF1001", and under FORMULA "ABCDEFFF0101". -/
theorem test_encode_device0 :
    wordsAfter .encode (abcde 0#32) [0x04#8, 0x80#8, 0x84#8, 0x88#8, 0x8C#8, 0x24#8] =
        some [0x00010C01#32, 0x44434241#32, 0x46464645#32, 0x31303031#32, 0#32, 0#32] ∧
      wordsAfter .encode (underFormula (abcde 0#32)) [0x04#8, 0x80#8, 0x84#8, 0x88#8] =
        some [0x00010C01#32, 0x44434241#32, 0x46464645#32, 0x31303130#32] := by decide

/-- Selector -1: DEVICE_RANGE, OUT empty. -/
theorem test_encode_negative_device :
    wordsAfter .encode (abcde 0xFFFFFFFF#32) [0x04#8, 0x80#8, 0x84#8] = some [0x00010030#32, 0#32, 0#32] := by decide

/-- 5 in 3 bits is "101". -/
theorem test_toBinary_five :
    wordsAfter .toBinary (captured 5#32 3#32) [0x04#8, 0x80#8, 0x84#8] = some [0x00010301#32, 0x00313031#32, 0#32] := by
  decide

/-- 2^31 does not fit in 31 bits: VALUE_TOO_WIDE. -/
theorem test_toBinary_too_wide :
    wordsAfter .toBinary (captured 0x80000000#32 31#32) [0x04#8, 0x80#8] = some [0x00010060#32, 0#32] := by decide

/-- "000111" is "0F1". -/
theorem test_toTristate_0F1 :
    wordsAfter .toTristate (tinHolds [0x30#8, 0x30#8, 0x30#8, 0x31#8, 0x31#8, 0x31#8] 6#8) [0x04#8, 0xC0#8, 0x24#8] =
      some [0x00010001#32, 0x00314630#32, 0x00000003#32] := by decide

/-- "000110": the sentinel, and no partial "0F". -/
theorem test_toTristate_sentinel :
    wordsAfter .toTristate (tinHolds [0x30#8, 0x30#8, 0x30#8, 0x31#8, 0x31#8, 0x30#8] 6#8) [0x04#8, 0xC0#8, 0x24#8] =
      some [0x00010003#32, 0#32, 0#32] := by decide

/-- The captured code word "0F0F0FFF1001". -/
theorem test_diag_code_word :
    wordsAfter .diag (captured 0x001115C3#32 24#32) [0x04#8, 0x24#8, 0x80#8, 0x94#8, 0xC0#8, 0xC4#8, 0xC8#8] =
      some [0x00011801#32, 0x0000310C#32, 0x31303030#32, 0x31313030#32, 0x46304630#32, 0x46464630#32, 0x31303031#32] := by
  decide

/-- An odd bit count: NA, OUT kept. -/
theorem test_diag_odd :
    wordsAfter .diag (captured 5#32 3#32) [0x04#8, 0x24#8, 0x80#8, 0xC0#8] =
      some [0x00010303#32, 0x00000700#32, 0x00313031#32, 0#32] := by decide

/-- `W 0x08 0xFFFFFFFF` reads back 3; DIAG_INFO, OUT and a reserved offset ignore the write. -/
theorem test_wr32_reserved_bits :
    wordsAfter (.wr32 0x08#8 0xFFFFFFFF#32) State.reset [0x08#8] = some [0x00000003#32] ∧
      wordsAfter (.wr32 0x80#8 0x41414141#32) State.reset [0x80#8] = some [0#32] ∧
      wordsAfter (.wr32 0x30#8 0x12345678#32) State.reset [0x30#8] = some [0#32] := by decide

/-- An illegal command word: cause 1 and the results of the last command gone (2.6). -/
theorem test_wr32_illegal_command :
    (nextOf (exec .diag (captured 5#32 3#32))).bind (fun t => wordsAfter (.wr32 0x00#8 0x80000001#32) t
      [0x04#8, 0x80#8, 0x24#8, 0x18#8]) = some [0x00010010#32, 0#32, 0#32, 5#32] := by decide

/-- `R 0x04` at reset: OK with 0. -/
theorem test_rd32_status :
    (served .w32 0x00400000000#41 State.reset).map (·.response) = some (some { resp := .ok, rdata := some 0#32 }) := by
  decide

/-- `W 0x02 0x00000001`: ERR, no command, the host's fault recorded; a refused read returns 0 (R51). -/
theorem test_misaligned_access :
    (served .w32 0x10200000001#41 State.reset).map (fun t => (t.response, t.hostFault, readWord t 0x04#8)) =
        some (some { resp := .err, rdata := none }, true, 0#32) ∧
      (served .w32 0x01100000000#41 (abcde 0#32)).map (·.response) = some (some { resp := .err, rdata := some 0#32 }) := by
  decide

/-- The reset input keeps the parameter (R9) and clears the operands (R180). -/
theorem test_reset_keeps_parameter :
    (nextOf (step { underFormula (abcde 1#32) with inputs := [.reset] })).map (fun t => (t.lowPairOrder, t.operands)) =
      some (.formula, Operands.reset) := by decide

/-! Witnesses: the hypotheses of each statement are met, clause by clause, at the ends of their ranges. -/

/-- The reserved offsets at the ends of their two ranges. -/
theorem reserved_ends :
    ∀ off ∈ [0x28#8, 0x3C#8, 0xE0#8, 0xFC#8], wordAligned off = true ∧
      ((0x28 ≤ off.toNat ∧ off.toNat < 0x40) ∨ 0xE0 ≤ off.toNat) := by decide

theorem witness_ResetInputRestoresResetState :
    { abcde 4#32 with inputs := [PortInput.reset] }.inputs = .reset :: [] := rfl

theorem witness_RegisterMapReads :
    wordAligned 0x28#8 = true ∧ ((0x28 ≤ (0x28#8).toNat ∧ (0x28#8).toNat < 0x40) ∨ 0xE0 ≤ (0x28#8).toNat) := by decide

theorem witness_ReadChangesNothingElse : wordAligned 0x00#8 = true ∧ wordAligned 0xFC#8 = true := by decide

theorem witness_LittleEndianPacking :
    ∃ t, exec .encode (abcde 0#32) = .next t ∧ Memory.read t.results.out 0 = 0x41#8 ∧
      Memory.read t.results.out 1 = 0x42#8 ∧ Memory.read t.results.out 2 = 0x43#8 ∧
      Memory.read t.results.out 3 = 0x44#8 := ⟨_, rfl, by decide⟩

theorem witness_OperandWriteReadsBack :
    (0x08#8, 0x00000003#32) ∈ [(0x08#8, 0x00000003#32), (0x20#8, 0x000000FF#32)] ∧ BuffersCanonical (abcde 0#32) :=
  ⟨by decide, rfl, rfl, rfl⟩

theorem witness_WriteFrame :
    ∀ off ∈ [0x04#8, 0x40#8, 0xFC#8], wordAligned off = true ∧ off ≠ 0x00#8 ∧ wordAligned 0x00#8 = true ∧ 0x00#8 ≠ off := by
  decide

theorem witness_WriteTinBytes :
    wordAligned 0x40#8 = true ∧ 0x40#8 ≠ 0x00#8 ∧ locate 0x40#8 = .tin 0 ∧ locate 0x7C#8 = .tin 60 ∧
      (∀ i, locate 0x80#8 ≠ .tin i) ∧ (∀ i, locate 0x24#8 ≠ .tin i) ∧ BuffersCanonical State.reset :=
  ⟨by decide, by decide, rfl, rfl, fun _ => Location.noConfusion, fun _ => Location.noConfusion, rfl, rfl, rfl⟩

theorem witness_ReservedAndReadOnly :
    (∀ off ∈ [0x04#8, 0x24#8, 0x28#8, 0x3C#8, 0x80#8, 0xFC#8], wordAligned off = true ∧
      (off = 0x04#8 ∨ off = 0x24#8 ∨ (0x28 ≤ off.toNat ∧ off.toNat < 0x40) ∨ 0x80 ≤ off.toNat)) ∧
      (0x00000003#32 &&& 0x00000003#32 = 0xFFFFFFFF#32 &&& 0x00000003#32) ∧
      (0x00000141#32 &&& 0x000000FF#32 = 0x00000041#32 &&& 0x000000FF#32) := by decide

theorem witness_PortAcceptsOnlyAlignedWords :
    ({ State.reset with inputs := [.access .w32 0x00400000000#41] }.inputs = .access .w32 0x00400000000#41 :: []) ∧
      (0x00400000000#41).getLsbD 32 = false ∧ (0x00400000000#41).getLsbD 33 = false ∧
      (0x10200000001#41).getLsbD 33 = true ∧ (0x10100000001#41).getLsbD 32 = true ∧
      (∃ t, step { State.reset with hostFault := true } = .next t) := ⟨rfl, by decide, by decide, by decide, by decide, _, rfl⟩

theorem witness_MisalignedInstructionRefused :
    (0x01#8).toNat % 4 ≠ 0 ∧ (0x02#8).toNat % 4 ≠ 0 ∧ (0xFF#8).toNat % 4 ≠ 0 := by decide

theorem witness_DecodeOfEncode :
    Instr.encode.wellFormed = true ∧ (Instr.wr32 0x00#8 0x00000005#32).wellFormed = true ∧
      (Instr.wr32 0xFC#8 0x00000001#32).wellFormed = true ∧ (Instr.rd32 0x00#8).wellFormed = true := by decide

theorem witness_DecodeAcceptsOnlyEncodings :
    decodeAccess .w32 0x10000000001#41 = .ok .encode ∧ (0x10000000001#41).getLsbD 40 = true ∧
      decodeAccess .w32 0x0040000FFFF#41 = .ok (.rd32 0x04#8) ∧ (0x0040000FFFF#41).getLsbD 40 = false := by decide

theorem witness_StepRunsDecodedInstruction :
    { State.reset with inputs := [.access .w32 0x10000000002#41] }.inputs = .access .w32 0x10000000002#41 :: [] ∧
      decodeAccess .w32 0x10000000002#41 = .ok .toBinary := ⟨rfl, by decide⟩

theorem witness_EveryStepAnswers :
    (∀ width x rest, State.reset.inputs ≠ .resetDuring width x :: rest) ∧ State.reset.inputs = [] ∧
      { State.reset with inputs := [.resetDuring .w32 0x00400000000#41] }.inputs =
        .resetDuring .w32 0x00400000000#41 :: [] := ⟨fun _ _ _ h => (by cases h), rfl, rfl⟩

theorem witness_EveryInstructionAnswers : { State.reset with hostFault := true }.hostFault = true := rfl

/-- Selectors 0 and 4, the ends of the range. -/
theorem witness_EncodeBuildsCodeWord :
    ∀ d ∈ [0#32, 4#32], (abcde d).operands.encCtrl.groupPresent = true ∧ 0 ≤ (abcde d).operands.device.toInt ∧
      (abcde d).operands.device.toInt < 5 ∧ (∀ k < 5, groupChar (abcde d).operands k ≠ 0x00#8) := by
  intro d hd
  fin_cases hd <;> exact ⟨rfl, by decide, by decide, by decide⟩

/-- Each of the three failures: no group, selector -1 and 5, a group whose last character is the terminator. -/
theorem witness_EncodeFailsInOrder :
    State.reset.operands.encCtrl.groupPresent = false ∧
      ((abcde 0xFFFFFFFF#32).operands.encCtrl.groupPresent = true ∧ (abcde 0xFFFFFFFF#32).operands.device.toInt < 0) ∧
      5 ≤ (abcde 5#32).operands.device.toInt ∧
      (∃ o : Operands, o = { (abcde 4#32).operands with groupHi := 0x00#8 } ∧ o.encCtrl.groupPresent = true ∧
        0 ≤ o.device.toInt ∧ o.device.toInt < 5 ∧ ∃ k < 5, groupChar o k = 0x00#8) :=
  ⟨rfl, ⟨rfl, by decide⟩, by decide, _, rfl, rfl, by decide, by decide, 4, by decide, by decide⟩

theorem witness_DeviceFieldPatterns :
    (abcde 3#32).operands.encCtrl.groupPresent = true ∧ (∀ k < 5, groupChar (abcde 3#32).operands k ≠ 0x00#8) ∧
      ((abcde 3#32).lowPairOrder, (abcde 3#32).operands.device, ([0x46#8, 0x31#8, 0x46#8, 0x30#8, 0x30#8] : List Byte)) ∈
        [(LowPairOrder.vector, (3#32 : Word), ([0x46#8, 0x31#8, 0x46#8, 0x30#8, 0x30#8] : List Byte)),
          (.formula, 0#32, [0x46#8, 0x46#8, 0x46#8, 0x30#8, 0x31#8])] ∧
      ((underFormula (abcde 0#32)).lowPairOrder, (underFormula (abcde 0#32)).operands.device,
          ([0x46#8, 0x46#8, 0x46#8, 0x30#8, 0x31#8] : List Byte)) ∈
        [(LowPairOrder.vector, (3#32 : Word), ([0x46#8, 0x31#8, 0x46#8, 0x30#8, 0x30#8] : List Byte)),
          (.formula, 0#32, [0x46#8, 0x46#8, 0x46#8, 0x30#8, 0x31#8])] := by decide

theorem witness_FormulaReadingSwapsLowField :
    (abcde 0#32).lowPairOrder = .vector ∧ (underFormula (abcde 0#32)).lowPairOrder = .formula ∧
      (abcde 0#32).operands = (underFormula (abcde 0#32)).operands ∧ runsCommand .diag = true ∧
      Instr.diag ≠ .encode ∧ Instr.diag ≠ .wr32 0x00#8 0x00000001#32 :=
  ⟨rfl, rfl, rfl, rfl, by decide, by decide⟩

theorem witness_OnlySuccessfulCodeWordIsTransmitted :
    (∃ t, exec .encode (abcde 0#32) = .next t ∧ t.results.status.ok = true) ∧
      ∃ t, exec .encode State.reset = .next t ∧ t.results.status.ok = false := ⟨⟨_, rfl, by decide⟩, _, rfl, by decide⟩

theorem witness_GroupCheckAcceptsFullGroups :
    (∃ t, runLines (groupCheck false 0x41#8 0x42#8 0x43#8 0x44#8 0x45#8) State.reset = .next t ∧ t.results.status.ok = true) ∧
      ∃ t, runLines (groupCheck true 0x41#8 0x42#8 0x43#8 0x44#8 0x00#8) State.reset = .next t ∧
        t.results.status.ok = false := ⟨⟨_, rfl, by decide⟩, _, rfl, by decide⟩

/-- BITLEN 0 with value 0, 32 and 64. -/
theorem witness_ToBinaryWritesBits :
    ∀ p ∈ [((0#32 : Word), (0#32 : Word)), (0xFFFFFFFF#32, 32#32), (1#32, 64#32)],
      (captured p.1 p.2).operands.bitLen.toNat ≤ 64 ∧
        (captured p.1 p.2).operands.value.toNat < 2 ^ (captured p.1 p.2).operands.bitLen.toNat := by
  simp [captured, withOperands]

theorem witness_ToBinaryFailsInOrder :
    64 < (captured 0#32 65#32).operands.bitLen.toNat ∧
      (captured 8#32 3#32).operands.bitLen.toNat ≤ 64 ∧
      2 ^ (captured 8#32 3#32).operands.bitLen.toNat ≤ (captured 8#32 3#32).operands.value.toNat := by decide

theorem witness_ToBinaryStringDenotesValue :
    (captured 5#32 64#32).operands.bitLen.toNat ≤ 64 ∧
      (captured 5#32 64#32).operands.value.toNat < 2 ^ (captured 5#32 64#32).operands.bitLen.toNat := by
  simp [captured, withOperands]

/-- An odd string, a string with the pair "10", and a string of valid pairs. -/
theorem witness_TriMapIsAllOrNothing :
    [0x30#8].length % 2 = 1 ∧ ¬ValidPair 0x31#8 0x30#8 ∧ ValidPair 0x30#8 0x31#8 ∧ ValidPair 0x31#8 0x31#8 ∧
      ValidPair 0x30#8 0x30#8 := by
  unfold ValidPair; decide

theorem witness_TriMapRoundTrips :
    (∀ c ∈ [0x30#8, 0x31#8, 0x46#8], c = 0x30#8 ∨ c = 0x31#8 ∨ c = 0x46#8) ∧
      triMap [0x30#8, 0x30#8, 0x31#8, 0x31#8, 0x30#8, 0x31#8] = some [0x30#8, 0x31#8, 0x46#8] := by decide

/-- TIN_LEN 2 with "01"; TIN_LEN 1; TIN_LEN 2 with "10"; TIN_LEN 65. -/
theorem witness_ToTristateOutcomes :
    (∃ o, o = (tinHolds [0x30#8, 0x31#8] 2#8).operands ∧ o.tinLen.toNat ≤ 64 ∧ o.tinLen.toNat % 2 = 0 ∧
        ∀ k, 2 * k + 1 < o.tinLen.toNat → ValidPair (Memory.read o.tin (2 * k)) (Memory.read o.tin (2 * k + 1))) ∧
      (tinHolds [0x30#8] 1#8).operands.tinLen.toNat % 2 = 1 ∧
      (∃ o, o = (tinHolds [0x31#8, 0x30#8] 2#8).operands ∧ 2 * 0 + 1 < o.tinLen.toNat ∧
        ¬ValidPair (Memory.read o.tin (2 * 0)) (Memory.read o.tin (2 * 0 + 1))) ∧
      64 < (tinHolds [] 65#8).operands.tinLen.toNat := by
  refine ⟨⟨_, rfl, by decide, by decide, fun k hk => ?_⟩, by decide, ⟨_, rfl, by decide, ?_⟩, by decide⟩
  · have h : 2 * k + 1 < 2 := hk
    obtain rfl : k = 0 := by omega
    exact .inr (.inr (by decide))
  · unfold ValidPair; decide

/-- "00" with different bytes past TIN_LEN. -/
theorem witness_TinBeyondLengthUnread :
    (tinHolds [0x30#8, 0x30#8, 0x31#8] 2#8).operands.tinLen = (tinHolds [0x30#8, 0x30#8] 2#8).operands.tinLen ∧
      ∀ i < 2, Memory.read (tinHolds [0x30#8, 0x30#8, 0x31#8] 2#8).operands.tin i =
        Memory.read (tinHolds [0x30#8, 0x30#8] 2#8).operands.tin i := by decide

theorem witness_DiagOfZeroIsUnknown : (captured 0#32 200#32).operands.value = 0#32 := rfl

/-- BITLEN 1 and 64. -/
theorem witness_DiagDecodesCapture :
    ∀ n ∈ [(1#32 : Word), 64#32], (captured 1#32 n).operands.value ≠ 0#32 ∧
      (captured 1#32 n).operands.bitLen.toNat ≤ 64 ∧
      (captured 1#32 n).operands.value.toNat < 2 ^ (captured 1#32 n).operands.bitLen.toNat := by
  simp [captured, withOperands]

/-- The sentinel of DIAG and its absence both occur. -/
theorem witness_DiagDecodesCapture_na :
    (∃ t, exec .diag (captured 2#32 2#32) = .next t ∧ t.results.status.na = true) ∧
      ∃ t, exec .diag (captured 1#32 2#32) = .next t ∧ t.results.status.na = false := ⟨⟨_, rfl, by decide⟩, _, rfl, by decide⟩

theorem witness_DiagFailsInOrder :
    (captured 1#32 65#32).operands.value ≠ 0#32 ∧ 64 < (captured 1#32 65#32).operands.bitLen.toNat ∧
      (captured 3#32 1#32).operands.value ≠ 0#32 ∧ (captured 3#32 1#32).operands.bitLen.toNat ≤ 64 ∧
      2 ^ (captured 3#32 1#32).operands.bitLen.toNat ≤ (captured 3#32 1#32).operands.value.toNat := by decide

/-- The group "0F0F0" with selector 3 (95_test_vectors 2.1), and a capture of its code word; the inner hypotheses
are met by the value the statement names. -/
theorem witness_EncodedWordDecodesBack :
    let s := withOperands
      { Operands.reset with
        encCtrl := { turnOn := true, groupPresent := true }, groupLo := 0x46304630#32, groupHi := 0x30#8, device := 3#32 }
    s.operands.encCtrl.groupPresent = true ∧ 0 ≤ s.operands.device.toInt ∧ s.operands.device.toInt < 5 ∧
      (∀ k < 5, groupChar s.operands k = 0x30#8 ∨ groupChar s.operands k = 0x31#8 ∨ groupChar s.operands k = 0x46#8) ∧
      ∃ t, exec .encode s = .next t ∧ ∃ u : State, u.operands.value =
          BitVec.ofNat 32 (binaryValue (triToBinary (Memory.loadBytes t.results.out 12))) ∧ u.operands.bitLen = 24#32 :=
  ⟨by decide, by decide, by decide, by decide, _, rfl, captured _ 24#32, rfl, rfl⟩

theorem witness_ReportFieldsInOrder :
    (captured 0#32 0#32).operands.value = 0#32 ∧ (captured 5#32 3#32).operands.value ≠ 0#32 ∧
      (captured 5#32 3#32).operands.bitLen.toNat ≤ 64 ∧
      (captured 5#32 3#32).operands.value.toNat < 2 ^ (captured 5#32 3#32).operands.bitLen.toNat ∧
      64 < (captured 5#32 65#32).operands.bitLen.toNat ∧
      2 ^ (captured 8#32 3#32).operands.bitLen.toNat ≤ (captured 8#32 3#32).operands.value.toNat := by
  simp [captured, withOperands]

theorem witness_IllegalCommandFails :
    ∀ w ∈ [0x00000000#32, 0x00000005#32, 0xFFFFFFFF#32],
      w ≠ 0x00000001#32 ∧ w ≠ 0x00000002#32 ∧ w ≠ 0x00000003#32 ∧ w ≠ 0x00000004#32 := by simp

theorem witness_CommandsKeepOperands :
    runsCommand .encode = true ∧ runsCommand (.wr32 0x00#8 7#32) = true ∧ (0x7C#8).toNat < 0x80 ∧ 0x7C#8 ≠ 0x04#8 ∧
      0x7C#8 ≠ 0x24#8 := by decide

theorem witness_FailureIsPrecise :
    runsCommand .toBinary = true ∧
      ∃ t, exec .toBinary (captured 8#32 3#32) = .next t ∧ t.results.status.ok = false := ⟨rfl, _, rfl, by decide⟩

/-- Two states that differ in their results and their record only. -/
theorem witness_ResultsDependOnOperandsOnly :
    runsCommand .diag = true ∧ ∃ t, exec .encode (abcde 0#32) = .next t ∧
      (abcde 0#32).lowPairOrder = { t with hostFault := true }.lowPairOrder ∧
      (abcde 0#32).operands = { t with hostFault := true }.operands ∧ t.results ≠ (abcde 0#32).results :=
  ⟨rfl, _, rfl, rfl, rfl, by decide⟩

theorem witness_RepeatedAccessIsIdempotent :
    BuffersCanonical State.reset ∧ ∃ t, exec (.wr32 0x40#8 0x31303130#32) State.reset = .next t := ⟨⟨rfl, rfl, rfl⟩, _, rfl⟩

/-- Two neighbouring words of TIN. -/
theorem witness_OperandWriteOrderIsFree :
    BuffersCanonical State.reset ∧ 0x40#8 ≠ 0x00#8 ∧ 0x44#8 ≠ 0x00#8 ∧ 0x40#8 ≠ 0x44#8 ∧
      ∃ t u t' u', exec (.wr32 0x40#8 1#32) State.reset = .next t ∧ exec (.wr32 0x44#8 2#32) t = .next u ∧
        exec (.wr32 0x44#8 2#32) State.reset = .next t' ∧ exec (.wr32 0x40#8 1#32) t' = .next u' :=
  ⟨⟨rfl, rfl, rfl⟩, by decide, by decide, by decide, _, _, _, _, rfl, rfl, rfl, rfl⟩

/-- The first and the last operand offset, the last offset of all, and a canonical TIN. -/
theorem witness_CommandUsesLatestOperands_offsets :
    (∀ off ∈ [0x08#8, 0x7C#8, 0xFC#8], wordAligned off = true ∧ off ≠ 0x00#8) ∧
      Memory.wf 64 (tinHolds [0x30#8, 0x31#8] 2#8).operands.tin = true := by decide

theorem witness_CommandUsesLatestOperands :
    ∀ p ∈ [((0#32 : Word), (0#32 : Word)), (5#32, 64#32)], p.2.toNat ≤ 64 ∧ p.1.toNat < 2 ^ p.2.toNat := by simp

theorem witness_DoneIsSetByCommandsOnly :
    runsCommand .toTristate = true ∧ ∃ s, exec .toTristate State.reset = .next s ∧ s.results.status.done = true ∧
      (∀ rest, s.inputs ≠ .reset :: rest) ∧ ∃ t, step s = .next t :=
  ⟨rfl, _, rfl, by decide, fun _ h => (by cases h), _, rfl⟩

/-- A step that raises DONE. -/
theorem witness_DoneIsSetByCommandsOnly_raised :
    State.reset.results.status.done = false ∧
      ∃ t, step { State.reset with inputs := [.access .w32 0x10000000003#41] } = .next t ∧
        t.results.status.done = true := ⟨rfl, _, rfl, by decide⟩

theorem witness_FlagsWrittenOnlyByCommands :
    runsCommand (.wr32 0x04#8 0xFFFFFFFF#32) = false ∧ runsCommand (.rd32 0x00#8) = false ∧
      ∃ t, step { State.reset with inputs := [.access .w32 0x10000000004#41] } = .next t ∧
        t.results ≠ State.reset.results := ⟨by decide, rfl, _, rfl, by decide⟩

/-- By either name of either command. -/
theorem witness_NaOnlyFromPairwiseMapping :
    (∃ t, exec .toTristate (tinHolds [0x31#8, 0x30#8] 2#8) = .next t ∧ t.results.status.na = true) ∧
      ∃ t, exec (.wr32 0x00#8 0x00000004#32) (captured 5#32 3#32) = .next t ∧ t.results.status.na = true :=
  ⟨⟨_, rfl, by decide⟩, _, rfl, by decide⟩

theorem witness_UnknownOnlyFromZeroDiag :
    runsCommand .diag = true ∧ ∃ t, exec .diag State.reset = .next t ∧ t.results.status.unknown = true :=
  ⟨rfl, _, rfl, by decide⟩

theorem witness_StatusLawsAfterEveryCommand : runsCommand .diag = true := rfl

theorem witness_StepKeepsBuffersCanonical :
    BuffersCanonical (tinHolds [0x30#8, 0x31#8] 2#8) ∧
      ∃ t, step { tinHolds [0x30#8, 0x31#8] 2#8 with inputs := [.access .w32 0x14000003130#41] } = .next t :=
  ⟨⟨by decide, rfl, rfl⟩, _, rfl⟩

/-- The results of a DIAG of value 0, and a step from them. -/
theorem witness_StepKeepsStatusLaws :
    let s : State :=
      { State.reset with
        results := { clearedResults with status := unknownStatus }, inputs := [.access .w32 0x10000000001#41] }
    StatusLaws s.results ∧ LengthsInRange s.results ∧ ∃ t, step s = .next t :=
  ⟨⟨fun _ => rfl, fun _ h => (by cases h), fun _ => rfl, fun h => (by cases h.1), fun _ _ => rfl, fun _ _ => rfl,
    fun h => (by cases h), fun h => (by cases h)⟩, ⟨by decide, by decide, by decide⟩, _, rfl⟩

theorem witness_LdTinLoadsString :
    BuffersCanonical State.reset ∧ ([] : List Byte).length ≤ 64 ∧ (List.replicate 64 0x30#8 : List Byte).length ≤ 64 :=
  ⟨⟨rfl, rfl, rfl⟩, by decide, by decide⟩

theorem witness_HostAddressesNameOffsets : ∃ a, offsetOfHostAddress a = some 0xFC#8 :=
  ⟨hostAddress 0xFC#8, by
    have h : hostAddress 0xFC#8 = Config.tscwBase + 252 := rfl
    rw [offsetOfHostAddress, h, if_pos (by unfold Config.regSpace; omega), Nat.add_sub_cancel_left]⟩

theorem witness_LowPairOrderIsFixed :
    ∃ t, step { underFormula (abcde 0#32) with inputs := [.access .w32 0x10000000001#41] } = .next t := ⟨_, rfl⟩

end Sys2Proof.Tests
end

/-! The statements on 00_scope: the fixed parameter (O58), what the parameter changes (O25), and the number that TO_BINARY
writes (O30). -/

namespace Sys2Proof.Machine
open Sys2Proof.Safety

/-! The parameter is fixed (R8, R9). -/

/-- No instruction changes the parameter (R9). -/
theorem exec_lowPairOrder {i : Instr} {s t : State} (h : exec i s = .next t) : t.lowPairOrder = s.lowPairOrder := by
  rcases exec_cases i s with ⟨-, hx⟩ | ⟨off, data, -, -, -, hx⟩ | ⟨off, -, -, hx⟩ | ⟨d, -, hx⟩ <;>
    obtain rfl := Host.Outcome.next.inj (hx.symm.trans h)
  · exact completeCommand_lowPairOrder _ s
  · exact storeOperands_lowPairOrder _ s
  · exact respond_lowPairOrder _ s
  · exact refuseAccess_lowPairOrder d s

/-- No step changes the parameter, a reset neither (R9). -/
theorem step_lowPairOrder {s t : State} (h : step s = .next t) : t.lowPairOrder = s.lowPairOrder := by
  rcases step_cases s with ⟨-, hs⟩ | ⟨rest, -, hs⟩ | ⟨w, x, rest, -, hs⟩ | ⟨w, x, rest, i, -, -, hs⟩ |
    ⟨w, x, rest, e, -, -, hs⟩ <;> rw [hs] at h
  · obtain rfl := Host.Outcome.next.inj h
    rfl
  · obtain rfl := Host.Outcome.next.inj h
    simp
  · cases h
  · simpa using exec_lowPairOrder h
  · obtain rfl := Host.Outcome.next.inj h
    simp

/-- Settles O58: the reset state has the default of R8, and each kind of step keeps the parameter. -/
theorem lowPairOrderIsFixed : Obligations.LowPairOrderIsFixed :=
  ⟨rfl, fun _ _ => step_lowPairOrder⟩

/-! What the parameter changes (R9, R104). -/

/-- The FORMULA code word is the VECTOR one with positions 8 and 9 swapped (R104). -/
theorem getD_codeWord_formula (o : Operands) (device : Word) (on : Bool) (i : Nat) :
    (codeWord .formula o.group device on).getD i 0#8 =
      (codeWord .vector o.group device on).getD (Equiv.swap 8 9 i) 0#8 := by
  rcases Nat.lt_or_ge i 12 with hi | hi
  · rw [codeWord_eq, codeWord_eq]
    interval_cases i <;> rfl
  · have hpast : ∀ order, (codeWord order o.group device on).getD i 0#8 = 0#8 := fun order =>
      List.getD_eq_default _ _ (by rwa [length_codeWord (length_group o)])
    rw [Equiv.swap_apply_of_ne_of_ne (by omega) (by omega), hpast, hpast]

/-- Whether ENCODE fails, and with which cause, does not depend on the parameter; only the code word does (R101, R104). -/
theorem encodeResults_cases (o : Operands) :
    (∃ c, ∀ order, encodeResults order o = raiseError c) ∨
      ∀ order, encodeResults order o =
        { clearedResults with
          out := outOf (codeWord order o.group o.device o.encCtrl.turnOn)
          status := okStatus Config.codeLen } := by
  unfold encodeResults
  split_ifs
  · exact .inl ⟨.groupAbsent, fun _ => rfl⟩
  · exact .inl ⟨.deviceRange, fun _ => rfl⟩
  · exact .inl ⟨.groupShort, fun _ => rfl⟩
  · exact .inr fun _ => rfl

/-- Of the command words only 0x00000001 selects ENCODE (R73). -/
theorem decodeCommand_eq_encode {w : Word} (h : decodeCommand w = .encode) : w = 0x00000001#32 := by
  unfold decodeCommand at h
  split_ifs at h with h1
  exact h1

/-- ENCODE is run by its own name and by the write of its word to CMD, and by nothing else (R24, R71). -/
theorem eq_encode_or_write_of_commandOf {i : Instr} (hr : runsCommand i = true) (hc : commandOf i = .encode) :
    i = .encode ∨ i = .wr32 0x00#8 0x00000001#32 := by
  cases i with
  | encode => exact .inl rfl
  | wr32 off data =>
    have h0 : off = 0x00#8 := by simpa [runsCommand] using hr
    exact .inr (by rw [h0, decodeCommand_eq_encode hc])
  | toBinary | toTristate | diag | rd32 off => cases hc

/-- Only ENCODE takes the parameter (R9, R104). -/
theorem commandResults_order_irrel {c : Command} (hc : c ≠ .encode) (order order' : LowPairOrder) (o : Operands) :
    commandResults order c o = commandResults order' c o := by
  cases c with
  | encode => exact absurd rfl hc
  | toBinary | toTristate | diag | illegal => rfl

/-- Settles O25: an ENCODE that fails does so before the parameter matters, one that succeeds writes a code word that is the
other reading's with positions 8 and 9 swapped, and no other command takes the parameter. -/
theorem formulaReadingSwapsLowField : Obligations.FormulaReadingSwapsLowField := by
  refine ⟨fun s u hs hu ho => ⟨_, _, rfl, rfl, ?_⟩, fun i s u hr hne hne' ho => ?_⟩
  · simp only [completeCommand_results, hs, hu, ← ho]
    rcases encodeResults_cases s.operands with ⟨c, hc⟩ | hok
    · rw [hc, hc]
      exact ⟨rfl, rfl, rfl, rfl, rfl, fun _ _ _ => rfl⟩
    · rw [hok, hok]
      simp only [read_outOf, getD_codeWord_formula, true_and]
      exact ⟨rfl, rfl, fun i h8 h9 => by rw [Equiv.swap_apply_of_ne_of_ne h8 h9]⟩
  · have hc : commandOf i ≠ .encode := fun h => (eq_encode_or_write_of_commandOf hr h).elim hne hne'
    refine ⟨_, _, exec_command hr s, exec_command hr u, ?_⟩
    rw [completeCommand_results, completeCommand_results, ho]
    exact commandResults_order_irrel hc _ _ _

/-! The number that TO_BINARY writes (R53, R81). -/

/-- The binary string of a value that fits denotes it: the string without its last character is that of the value's half, and
the last character is bit 0 (R122). -/
theorem binaryValue_binaryString {n : Nat} : ∀ {v : Word}, v.toNat < 2 ^ n → binaryValue (binaryString v n) = v.toNat := by
  induction n with
  | zero =>
    intro v hv
    have h0 : v.toNat = 0 := by simpa using hv
    rw [h0]
    rfl
  | succ n ih =>
    intro v hv
    have hhalf : (v >>> 1).toNat = v.toNat / 2 := by rw [BitVec.toNat_ushiftRight, Nat.shiftRight_eq_div_pow, pow_one]
    have hlast : binaryValue [if v.getLsbD 0 then char1 else char0] = v.toNat % 2 := by
      rw [BitVec.getLsbD, Nat.testBit_zero]
      rcases Nat.mod_two_eq_zero_or_one v.toNat with h | h <;> rw [h] <;> rfl
    rw [binaryString_succ, binaryValue_append, ih (by rw [hhalf]; omega), hhalf, hlast, List.length_singleton, pow_one,
      Nat.div_add_mod']

/-- Settles O30: OUT_LEN is BITLEN, OUT holds the binary string of VALUE, and that string denotes VALUE. -/
theorem toBinaryStringDenotesValue : Obligations.ToBinaryStringDenotesValue := by
  intro s hn hv
  have hload := loadBytes_outOf (binaryString s.operands.value s.operands.bitLen.toNat)
  rw [length_binaryString] at hload
  have hlen : (okStatus s.operands.bitLen.toNat).outLen.toNat = s.operands.bitLen.toNat := toNat_ofNat_length (by omega)
  refine ⟨_, rfl, ?_⟩
  rw [completeCommand_results, toBinaryResults_ok hn hv]
  simp only [hlen, hload]
  exact binaryValue_binaryString hv

end Sys2Proof.Machine

/-! The statements on 10_state. First what every command leaves and what a step can do to the registers, then the
invariants, the register map, the writes, reserved bits, the commands as a whole, and the host's lines. -/

namespace Sys2Proof.Machine
open Sys2Proof.Safety

/-! What a command leaves (R29 to R31, R45). -/

/-- A string of at most 64 characters is followed by 0x00 from the length its register field holds on (R39). -/
theorem read_storeBytes_nil_padded {b : List Byte} (hb : b.length ≤ 64) {i : Nat}
    (hi : (BitVec.ofNat 8 b.length).toNat ≤ i) : Memory.read (Memory.storeBytes [] 0 b) i = 0#8 := by
  rw [toNat_ofNat_length (by omega)] at hi
  rw [Memory.read_storeBytes_nil, List.getD_eq_default _ _ hi]

/-- Every result a command can leave satisfies the relations of R45. -/
theorem Shape.statusLaws {r : Results} (h : Shape r) : StatusLaws r := by
  cases h with
  | failed c hc =>
    exact ⟨nofun, fun _ _ => hc, nofun, nofun, fun _ _ => rfl, fun _ _ => rfl, nofun, nofun⟩
  | unknown =>
    exact ⟨fun _ => rfl, nofun, fun _ => rfl, nofun, fun _ _ => rfl, fun _ _ => rfl, nofun, nofun⟩
  | na b raw hb hr =>
    exact ⟨fun _ => rfl, nofun, fun _ => rfl, nofun, fun _ => read_storeBytes_nil_padded hb, fun _ _ => rfl,
      fun _ => rfl, nofun⟩
  | ok b t raw hb ht hr =>
    exact ⟨fun _ => rfl, nofun, fun _ => rfl, nofun, fun _ => read_storeBytes_nil_padded hb,
      fun _ => read_storeBytes_nil_padded (by omega), nofun, nofun⟩

/-- Every result a command can leave has its lengths in the ranges of R30 and R38. -/
theorem Shape.lengthsInRange {r : Results} (h : Shape r) : LengthsInRange r := by
  cases h with
  | failed | unknown => exact ⟨Nat.zero_le _, Nat.zero_le _, Nat.zero_le _⟩
  | na b raw hb hr =>
    exact ⟨(toNat_ofNat_length (by omega)).trans_le hb, Nat.zero_le _, (toNat_ofNat_length (by omega)).trans_le hr⟩
  | ok b t raw hb ht hr =>
    exact ⟨(toNat_ofNat_length (by omega)).trans_le hb, (toNat_ofNat_length (by omega)).trans_le ht,
      (toNat_ofNat_length (by omega)).trans_le hr⟩

/-- The reset results satisfy the relations of R45. -/
theorem statusLaws_reset : StatusLaws Results.reset :=
  ⟨nofun, nofun, nofun, nofun, fun _ _ => rfl, fun _ _ => rfl, nofun, fun _ => rfl⟩

/-- The reset lengths are in range. -/
theorem lengthsInRange_reset : LengthsInRange Results.reset := ⟨Nat.zero_le _, Nat.zero_le _, Nat.zero_le _⟩

/-- The reset buffers are canonical. -/
theorem buffersCanonical_reset : BuffersCanonical State.reset := ⟨rfl, rfl, rfl⟩

/-! What a step can do to the registers. -/

/-- A 32-bit write at offset 0x00 is the oldest input: bits 40:32 of its transaction are DIR 1 and OFF 0x00 (R76). -/
def ServesCmdWrite (s : State) : Prop :=
  ∃ x rest, s.inputs = .access .w32 x :: rest ∧ x.extractLsb' 32 9 = 0x100#9

/-- What one step or instruction from `s` can do to the operands and results of the block (R43, R47, R55 to R57, R180). -/
inductive RegisterEffect (s t : State) : Prop where
  | kept (ho : t.operands = s.operands) (hr : t.results = s.results)
  | reset (hi : ∃ rest, s.inputs = .reset :: rest) (ho : t.operands = Operands.reset) (hr : t.results = Results.reset)
  | command (hi : ServesCmdWrite s) (ho : t.operands = s.operands) (hr : Shape t.results)
  | stored (off : Offset) (data : Word) (ha : wordAligned off = true)
      (ho : t.operands = writeLocation data s.operands (locate off)) (hr : t.results = s.results)

/-- DIR 1 and OFF 0x00 as bits 40:32 of a transaction (R76). -/
theorem extractLsb'_of_cmd_write {x : Txn} (hd : txnDir x = .write) (ho : txnOff x = 0x00#8) :
    x.extractLsb' 32 9 = 0x100#9 := by
  have hbit : x.getLsbD 40 = true := by
    unfold txnDir at hd
    split at hd
    · assumption
    · cases hd
  apply BitVec.eq_of_getLsbD_eq
  intro k hk
  rw [BitVec.getLsbD_extractLsb', decide_eq_true hk, Bool.true_and]
  by_cases h8 : k = 8
  · rw [h8, hbit]
    rfl
  · have hk8 : k < 8 := by omega
    have h0 := congrArg (fun b : Offset => b.getLsbD k) ho
    simp only [txnOff, BitVec.getLsbD_extractLsb', decide_eq_true hk8, Bool.true_and] at h0
    rw [h0]
    interval_cases k <;> rfl

/-- An instruction that runs no command keeps the results, and stores a word in the operands at most (R47, R57). -/
theorem exec_of_not_runsCommand {i : Instr} (hc : runsCommand i = false) (s : State) :
    ∃ t, exec i s = .next t ∧ t.results = s.results ∧ (t.operands = s.operands ∨
      ∃ off data, wordAligned off = true ∧ t.operands = writeLocation data s.operands (locate off)) := by
  rcases exec_cases i s with ⟨hc', -⟩ | ⟨off, data, -, -, ha, hx⟩ | ⟨off, -, -, hx⟩ | ⟨d, -, hx⟩
  · exact absurd hc' (by simp [hc])
  · exact ⟨_, hx, rfl, .inr ⟨off, data, ha, rfl⟩⟩
  · exact ⟨_, hx, rfl, .inl rfl⟩
  · exact ⟨_, hx, rfl, .inl rfl⟩

/-- What an instruction that runs a command leaves (R43, R56). -/
theorem eq_completeCommand {i : Instr} {s t : State} (hc : runsCommand i = true) (h : exec i s = .next t) :
    t = completeCommand (commandResults s.lowPairOrder (commandOf i) s.operands) s :=
  Host.Outcome.next.inj (h.symm.trans (exec_command hc s))

/-- What a step can do to the registers: nothing, the reset, one command, or the store of one word. -/
theorem step_registerEffect {s t : State} (h : step s = .next t) : RegisterEffect s t := by
  rcases step_cases s with ⟨-, hs⟩ | ⟨rest, hi, hs⟩ | ⟨w, x, rest, -, hs⟩ | ⟨w, x, rest, i, hi, hd, hs⟩ |
    ⟨w, x, rest, e, -, -, hs⟩ <;> rw [hs] at h
  · obtain rfl := Host.Outcome.next.inj h
    exact .kept rfl rfl
  · obtain rfl := Host.Outcome.next.inj h
    exact .reset ⟨rest, hi⟩ rfl rfl
  · cases h
  · cases hc : runsCommand i with
    | true =>
      obtain ⟨rfl, hdir, hoff⟩ := decodeAccess_command hd hc
      obtain rfl := eq_completeCommand hc h
      exact .command ⟨x, rest, hi, extractLsb'_of_cmd_write hdir hoff⟩ rfl (commandResults_shape _ _ _)
    | false =>
      obtain ⟨t', ht, hr, ho | ⟨off, data, ha, ho⟩⟩ := exec_of_not_runsCommand hc (withInputs rest s) <;>
        obtain rfl := Host.Outcome.next.inj (ht.symm.trans h)
      · exact .kept ho hr
      · exact .stored off data ha ho hr
  · obtain rfl := Host.Outcome.next.inj h
    exact .kept rfl rfl

/-! The invariants (R40 to R42, R45). -/

/-- Settles O53: a command's buffers are canonical (`Shape.canonical`), and a store keeps TIN so. -/
theorem stepKeepsBuffersCanonical : Obligations.StepKeepsBuffersCanonical := by
  intro s t ⟨htin, hout, htout⟩ h
  unfold BuffersCanonical
  cases step_registerEffect h with
  | kept ho hr => rw [ho, hr]; exact ⟨htin, hout, htout⟩
  | reset hi ho hr => rw [ho, hr]; exact buffersCanonical_reset
  | command hi ho hr => rw [ho]; exact ⟨htin, hr.canonical⟩
  | stored off data ha ho hr => rw [ho, hr]; exact ⟨writeLocation_tin_wf ha data htin, hout, htout⟩

/-- Settles O54: a step keeps the results, resets them, or replaces them by a command's (`Shape.statusLaws`,
`Shape.lengthsInRange`). -/
theorem stepKeepsStatusLaws : Obligations.StepKeepsStatusLaws := by
  intro s t hlaws hlen h
  cases step_registerEffect h with
  | kept ho hr => rw [hr]; exact ⟨hlaws, hlen⟩
  | reset hi ho hr => rw [hr]; exact ⟨statusLaws_reset, lengthsInRange_reset⟩
  | command hi ho hr => exact ⟨hr.statusLaws, hr.lengthsInRange⟩
  | stored off data ha ho hr => rw [hr]; exact ⟨hlaws, hlen⟩

/-- Settles O52: the buffers are empty, no command has run, and the lengths are 0. -/
theorem invariantsHoldAtReset : Obligations.InvariantsHoldAtReset :=
  ⟨buffersCanonical_reset, statusLaws_reset, lengthsInRange_reset⟩

/-- Settles O51: the results of a command have one of the shapes, each of which satisfies the relations. -/
theorem statusLawsAfterEveryCommand : Obligations.StatusLawsAfterEveryCommand :=
  ⟨statusLaws_reset, fun _ s hc => ⟨_, exec_command hc s, (commandResults_shape _ _ _).statusLaws⟩⟩

/-- Settles O47: of the effects a step can have only a command raises DONE, and only the reset clears it. -/
theorem doneIsSetByCommandsOnly : Obligations.DoneIsSetByCommandsOnly := by
  refine ⟨rfl, fun i s hc => ⟨_, exec_command hc s, (commandResults_shape _ _ _).done⟩, fun s t h hdone hi => ?_,
    fun s t h hdone hdone' => ?_⟩
  · cases step_registerEffect h with
    | kept ho hr => rwa [hr]
    | reset hi' ho hr =>
      obtain ⟨rest, hi'⟩ := hi'
      exact absurd hi' (hi rest)
    | command hi' ho hr => exact hr.done
    | stored off data ha ho hr => rwa [hr]
  · cases step_registerEffect h with
    | kept ho hr => rw [hr, hdone] at hdone'; cases hdone'
    | reset hi ho hr => rw [hr] at hdone'; cases hdone'
    | command hi ho hr => exact hi
    | stored off data ha ho hr => rw [hr, hdone] at hdone'; cases hdone'

/-- Settles O48: an instruction that runs no command keeps the results, and so does every step but a reset and a command. -/
theorem flagsWrittenOnlyByCommands : Obligations.FlagsWrittenOnlyByCommands := by
  refine ⟨fun i s hc => ?_, fun s t h hne => ?_⟩
  · obtain ⟨t, ht, hr, -⟩ := exec_of_not_runsCommand hc s
    exact ⟨t, ht, hr⟩
  · cases step_registerEffect h with
    | kept ho hr => exact absurd hr hne
    | reset hi ho hr => exact .inl hi
    | command hi ho hr => exact .inr hi
    | stored off data ha ho hr => exact absurd hr hne


/-! The register map (R23, R25, R32 to R42, R44). -/

/-- A read at word `k` of a buffer returns its four bytes, the lowest in bits 7:0 (R52). -/
theorem readsAs_bufferWord {s : State} {base k : Nat} (hbase : base % 4 = 0) (hk : base + 4 * k < 256) {m : Memory}
    (hm : readWord s (BitVec.ofNat 8 (base + 4 * k)) = Memory.readWord m (4 * k)) :
    ∃ w, ReadsAs s (BitVec.ofNat 8 (base + 4 * k)) w ∧
      ∀ j < 4, w.extractLsb' (8 * j) 8 = Memory.read m (4 * k + j) :=
  ⟨_, readsAs_of_readWord (wordAligned_ofNat base k hk hbase) hm, fun _ hj => Memory.byte_readWord m (4 * k) hj⟩

/-- A reserved offset reads as 0 (R44). -/
theorem readWord_reserved (s : State) {off : Offset} (h : (0x28 ≤ off.toNat ∧ off.toNat < 0x40) ∨ 0xE0 ≤ off.toNat) :
    readWord s off = 0#32 := by
  rw [readWord, locate_reserved off h, readLocation]

/-- ENC_CTRL bits 31:2 are reserved (R32). -/
theorem EncCtrl.reserved_word (r : EncCtrl) : r.word.extractLsb' 2 30 = 0#30 := by
  apply BitVec.eq_of_getLsbD_eq
  intro k hk
  rw [BitVec.getLsbD_extractLsb', EncCtrl.getLsbD_word, if_neg (by omega), if_neg (by omega)]
  simp

/-- Settles O4: the register map names each word, and each packed word has its fields. -/
theorem registerMapReads : Obligations.RegisterMapReads := by
  intro s
  have named : ∀ off, wordAligned off = true → ReadsAs s off (readWord s off) := fun _ ha => readsAs_of_readWord ha rfl
  refine ⟨named _ rfl, ⟨_, named _ rfl, ?_, ?_, ?_⟩, named _ rfl, named _ rfl, ⟨_, named _ rfl, ?_, ?_⟩, named _ rfl,
    named _ rfl, ⟨_, named _ rfl, ?_, ?_⟩, ⟨_, named _ rfl, ?_, ?_, ?_⟩, fun k hk => ?_, fun k hk => ?_, fun k hk => ?_,
    fun off ha h => readsAs_of_readWord ha (readWord_reserved s h)⟩
  · exact s.operands.encCtrl.getLsbD_word 0
  · exact s.operands.encCtrl.getLsbD_word 1
  · exact s.operands.encCtrl.reserved_word
  · exact setWidth_low s.operands.groupHi
  · exact setWidth_high s.operands.groupHi
  · exact setWidth_low s.operands.tinLen
  · exact setWidth_high s.operands.tinLen
  · exact s.results.diagInfo.triLen_word
  · exact s.results.diagInfo.rawCount_word
  · exact s.results.diagInfo.reserved_word
  · exact readsAs_bufferWord rfl (by omega) (by rw [readWord, locate_tin_offset k hk, readLocation])
  · exact readsAs_bufferWord rfl (by omega) (by rw [readWord, locate_out_offset k hk, readLocation])
  · exact readsAs_bufferWord rfl (by omega) (by rw [readWord, locate_tout_offset k hk, readLocation])

/-- Settles O5: STATUS reads as its word, whose fields are said in Laws/Words. -/
theorem statusWordLayout : Obligations.StatusWordLayout := by
  intro s
  have hbit := s.results.status.getLsbD_word
  refine ⟨_, readsAs_of_readWord rfl (readWord_status s), hbit 0, hbit 1, hbit 2, hbit 3, ?_, s.results.status.outLen_word,
    hbit 16, s.results.status.reserved_word⟩
  rw [Status.cause_word]
  cases s.results.status.cause <;> rfl

/-- A word of a buffer nothing has written reads as 0 (R46). -/
theorem Memory.readWord_nil (i : Nat) : Memory.readWord [] i = 0#32 := by
  simp only [Memory.readWord, Memory.read_nil]
  rfl

/-- Settles O1: no location of the reset state reads anything but 0. -/
theorem resetStateReadsZero : Obligations.ResetStateReadsZero := by
  refine ⟨fun off => ?_, blank_nil, blank_nil, blank_nil⟩
  rw [readWord]
  cases locate off with
  | tin i | out i | tout i => exact Memory.readWord_nil i
  | _ => rfl

/-- Settles O57: an offset and its host address differ by the base. -/
theorem hostAddressesNameOffsets : Obligations.HostAddressesNameOffsets := by
  refine ⟨fun off => ?_, fun a off h => ?_⟩
  · have hlt : off.toNat < Config.regSpace := off.isLt
    rw [offsetOfHostAddress, hostAddress, if_pos ⟨Nat.le_add_right _ _, by omega⟩, Nat.add_sub_cancel_left,
      BitVec.ofNat_toNat, BitVec.setWidth_eq]
  · rw [offsetOfHostAddress] at h
    split_ifs at h with hin
    have hlt : a - Config.tscwBase < 256 := by
      have : Config.regSpace = 256 := rfl
      omega
    rw [← Option.some.inj h, hostAddress, toNat_ofNat_offset hlt, Nat.add_sub_cancel' hin.1]

/-! Writes (R32 to R37, R40, R44, R55). -/

/-- What an offset reads after an accepted write at another than CMD (R55). -/
theorem exec_wr32_readsAs {off : Offset} (h0 : off ≠ 0x00#8) (ha : wordAligned off = true) (data w : Word) (s : State)
    (hw : readLocation (storeOperands (writeLocation data s.operands (locate off)) s) (locate off) = w) :
    ∃ t, exec (.wr32 off data) s = .next t ∧ t.response = some { resp := .ok, rdata := none } ∧ ReadsAs t off w :=
  ⟨_, exec_wr32_store h0 ha data s, rfl, readsAs_of_readWord ha hw⟩

/-- The low byte of a word, as the word masked to it (R34, R37). -/
theorem setWidth_setWidth_low (w : Word) : (w.setWidth 8).setWidth 32 = w &&& 0x000000FF#32 := by
  apply BitVec.eq_of_toNat_eq
  have hmask : (0x000000FF#32).toNat = 2 ^ 8 - 1 := rfl
  rw [BitVec.toNat_and, hmask, Nat.and_two_pow_sub_one_eq_mod, BitVec.toNat_setWidth, BitVec.toNat_setWidth]
  omega

/-- No TIN word is CMD (R23). -/
theorem tin_offset_ne_cmd {k : Nat} (hk : k < 16) : BitVec.ofNat 8 (0x40 + 4 * k) ≠ 0x00#8 := by
  intro h
  have hl := locate_tin_offset k hk
  rw [h] at hl
  cases hl

/-- Settles O8: each register keeps its implemented bits of the word written, and TIN all of them. -/
theorem operandWriteReadsBack : Obligations.OperandWriteReadsBack := by
  intro s data
  refine ⟨?_, fun ⟨htin, _, _⟩ k hk => ?_⟩
  · simp only [List.forall_mem_cons]
    refine ⟨?_, ?_, ?_, ?_, ?_, ?_, ?_, nofun⟩ <;> refine exec_wr32_readsAs (by decide) rfl data _ s ?_
    · exact EncCtrl.word_ofWord data
    · exact BitVec.and_allOnes.symm
    · exact BitVec.and_allOnes.symm
    · exact setWidth_setWidth_low data
    · exact BitVec.and_allOnes.symm
    · exact BitVec.and_allOnes.symm
    · exact setWidth_setWidth_low data
  · refine exec_wr32_readsAs (tin_offset_ne_cmd hk) (wordAligned_ofNat 0x40 k (by omega) rfl) data _ s ?_
    rw [locate_tin_offset k hk]
    exact Memory.readWord_writeWord (size := 64) data (by omega) htin

/-- Settles O10: the write stores the word at its TIN index, or nothing in TIN. -/
theorem writeTinBytes : Obligations.WriteTinBytes := by
  intro s off data ha h0
  refine ⟨_, exec_wr32_store h0 ha data s, fun i hi => ?_, fun hne j => ?_, fun _ => rfl, fun _ => rfl⟩
  · rw [storeOperands_operands, hi]
    refine ⟨fun j hj => Memory.read_writeWord_other _ data hj, fun ⟨htin, _, _⟩ j hj => ?_, rfl⟩
    refine (Memory.read_writeWord data (i + j) (locate_tin_bound ha hi).2 htin).trans ?_
    rw [if_pos (by omega), Nat.add_sub_cancel_left]
    rfl
  · rw [storeOperands_operands, tin_writeLocation]
    cases hl : locate off with
    | tin i => exact absurd hl (hne i)
    | _ => rfl

/-- Settles O17: the write runs the command its word selects. -/
theorem commandWriteIsTheCommand : Obligations.CommandWriteIsTheCommand := fun s =>
  ⟨exec_command (i := .wr32 0x00#8 0x00000001#32) rfl s, exec_command (i := .wr32 0x00#8 0x00000002#32) rfl s,
    exec_command (i := .wr32 0x00#8 0x00000003#32) rfl s, exec_command (i := .wr32 0x00#8 0x00000004#32) rfl s⟩


/-! Reserved bits and read-only registers (R44). -/

/-- A word whose bits under a mask are 0 (R44). -/
theorem and_mask_eq_zero {w mask : Word} (h : ∀ k < 32, mask.getLsbD k = true → w.getLsbD k = false) :
    w &&& mask = 0#32 := by
  apply BitVec.eq_of_getLsbD_eq
  intro k hk
  rw [BitVec.getLsbD_and, BitVec.getLsbD_zero]
  cases hm : mask.getLsbD k
  · exact Bool.and_false _
  · rw [h k hk hm, Bool.false_and]

/-- STATUS bits 3 and 31:17 read 0 (R25, R44). -/
theorem Status.word_and_reserved (r : Status) : r.word &&& 0xFFFE0008#32 = 0#32 := by
  have hmask : ∀ k < 32, (0xFFFE0008#32).getLsbD k = true → k = 3 ∨ 17 ≤ k := by decide
  refine and_mask_eq_zero fun k hk hm => ?_
  rw [Status.getLsbD_word]
  rcases hmask k hk hm with rfl | h
  · rfl
  · rw [if_neg (by omega), if_neg (by omega), if_neg (by omega), if_neg (by omega), if_neg (by omega), if_neg (by omega),
      if_neg (by omega)]

/-- ENC_CTRL bits 31:2 read 0 (R32, R44). -/
theorem EncCtrl.word_and_reserved (r : EncCtrl) : r.word &&& 0xFFFFFFFC#32 = 0#32 := by
  have hmask : ∀ k < 32, (0xFFFFFFFC#32).getLsbD k = true → 2 ≤ k := by decide
  refine and_mask_eq_zero fun k hk hm => ?_
  have := hmask k hk hm
  rw [EncCtrl.getLsbD_word, if_neg (by omega), if_neg (by omega)]

/-- Bits 31:8 of an 8-bit register read 0 (R34, R37, R44). -/
theorem setWidth_and_reserved (b : Byte) : b.setWidth 32 &&& 0xFFFFFF00#32 = 0#32 := by
  have hmask : ∀ k < 32, (0xFFFFFF00#32).getLsbD k = true → 8 ≤ k := by decide
  refine and_mask_eq_zero fun k hk hm => ?_
  rw [BitVec.getLsbD_setWidth, BitVec.getLsbD_of_ge b k (hmask k hk hm), Bool.and_false]

/-- DIAG_INFO bits 31:16 read 0 (R38, R44). -/
theorem DiagInfo.word_and_reserved (r : DiagInfo) : r.word &&& 0xFFFF0000#32 = 0#32 := by
  have hmask : ∀ k < 32, (0xFFFF0000#32).getLsbD k = true → 16 ≤ k := by decide
  refine and_mask_eq_zero fun k hk hm => ?_
  have := hmask k hk hm
  rw [DiagInfo.getLsbD_word, if_neg (by omega), if_neg (by omega)]

/-- Words that agree in bits 1:0 leave the same fields in ENC_CTRL (R32, R44). -/
theorem EncCtrl.ofWord_congr {w w' : Word} (h : w &&& 0x00000003#32 = w' &&& 0x00000003#32) :
    EncCtrl.ofWord w = EncCtrl.ofWord w' := by
  have hbit (k : Nat) := congrArg (fun v : Word => v.getLsbD k) h
  simp only [BitVec.getLsbD_and] at hbit
  have h0 := hbit 0
  have h1 := hbit 1
  simp only [EncCtrl.ofWord, EncCtrl.mk.injEq]
  exact ⟨by simpa using h0, by simpa using h1⟩

/-- Words that agree in bits 7:0 leave the same byte (R34, R37, R44). -/
theorem setWidth_congr {w w' : Word} (h : w &&& 0x000000FF#32 = w' &&& 0x000000FF#32) :
    w.setWidth 8 = w'.setWidth 8 := by
  rw [← setWidth_setWidth_low, ← setWidth_setWidth_low] at h
  rw [← setWidth_low (w.setWidth 8), h, setWidth_low]

/-- Two words that store the same operands are one write (R55). -/
theorem exec_wr32_congr {off : Offset} (h0 : off ≠ 0x00#8) (ha : wordAligned off = true) {data data' : Word} {s : State}
    (h : writeLocation data s.operands (locate off) = writeLocation data' s.operands (locate off)) :
    exec (.wr32 off data) s = exec (.wr32 off data') s := by
  rw [exec_wr32_store h0 ha, exec_wr32_store h0 ha, h]

/-- The offsets that no write changes: STATUS, DIAG_INFO, the reserved ones, OUT and TOUT (R44). -/
theorem writeLocation_readOnly {off : Offset}
    (h : off = 0x04#8 ∨ off = 0x24#8 ∨ (0x28 ≤ off.toNat ∧ off.toNat < 0x40) ∨ 0x80 ≤ off.toNat) (w : Word)
    (o : Operands) : writeLocation w o (locate off) = o := by
  rcases h with rfl | rfl | h | h
  · rfl
  · rfl
  · rw [locate_reserved off (.inl h), writeLocation]
  · rw [locate, if_neg (by omega), if_neg (by omega)]
    split_ifs <;> rfl

/-- A read, accepted or refused, changes no register (R44, R51). -/
theorem exec_rd32_keeps (off : Offset) (s : State) :
    ∃ t, exec (.rd32 off) s = .next t ∧ t.operands = s.operands ∧ t.results = s.results := by
  cases ha : wordAligned off
  · exact ⟨_, exec_rd32_refused ha s, rfl, rfl⟩
  · exact ⟨_, exec_rd32 ha s, rfl, rfl⟩

/-- Settles O11, a lemma above for each sentence of R44. -/
theorem reservedAndReadOnly : Obligations.ReservedAndReadOnly := by
  refine fun s => ⟨fun off _ h => readWord_reserved s h,
    ⟨s.results.status.word_and_reserved, s.operands.encCtrl.word_and_reserved,
      setWidth_and_reserved s.operands.groupHi, setWidth_and_reserved s.operands.tinLen,
      s.results.diagInfo.word_and_reserved⟩,
    ?_, fun off data ha h => ?_, fun off => exec_rd32_keeps off s⟩
  · simp only [List.forall_mem_cons]
    refine ⟨fun data data' h => ?_, fun data data' h => ?_, fun data data' h => ?_, nofun⟩ <;>
      refine exec_wr32_congr (by decide) rfl ?_
    · exact congrArg (fun e => { s.operands with encCtrl := e }) (EncCtrl.ofWord_congr h)
    · exact congrArg (fun b => { s.operands with groupHi := b }) (setWidth_congr h)
    · exact congrArg (fun b => { s.operands with tinLen := b }) (setWidth_congr h)
  · have h0 : off ≠ 0x00#8 := by
      rintro rfl
      exact absurd h (by decide)
    exact ⟨_, exec_wr32_store h0 ha data s, writeLocation_readOnly h data s.operands, rfl⟩

/-! Commands as a whole (R27, R28, R43, R161). -/

/-- The lines after the first run from the state that it answers (R60). -/
theorem runLines_cons {l : HostLine} {s t : State} (h : exec (lineInstr l) s = .next t) (ls : List HostLine) :
    runLines (l :: ls) s = runLines ls t := by
  rw [runLines, h]

/-- A line that writes CMD runs the command of its word (R24, R83). -/
theorem runLines_wr_cmd (w : Word) (ls : List HostLine) (s : State) :
    runLines (.wr .cmd w :: ls) s =
      runLines ls (completeCommand (commandResults s.lowPairOrder (decodeCommand w) s.operands) s) :=
  runLines_cons (l := .wr .cmd w) (exec_command (i := .wr32 0x00#8 w) rfl s) ls

/-- A line that writes another register stores its word (R55, R83). -/
theorem runLines_wr {r : Location} (h0 : offsetOf r ≠ 0x00#8) (ha : wordAligned (offsetOf r) = true) (w : Word)
    (ls : List HostLine) (s : State) :
    runLines (.wr r w :: ls) s = runLines ls (storeOperands (writeLocation w s.operands (locate (offsetOf r))) s) :=
  runLines_cons (l := .wr r w) (exec_wr32_store h0 ha w s) ls

/-- Any sequence of writes to CMD keeps the operands (R43). -/
theorem runLines_cmd_operands (words : List Word) :
    ∀ s : State, ∃ t, runLines (words.map fun w => .wr .cmd w) s = .next t ∧ t.operands = s.operands := by
  induction words with
  | nil => exact fun s => ⟨s, rfl, rfl⟩
  | cons w words ih =>
    intro s
    obtain ⟨t, ht, ho⟩ := ih (completeCommand (commandResults s.lowPairOrder (decodeCommand w) s.operands) s)
    exact ⟨t, (runLines_wr_cmd w _ s).trans ht, ho⟩

/-- Settles O41: a command completes with the operands as they were, and the words below 0x80 but STATUS and DIAG_INFO read
nothing else. -/
theorem commandsKeepOperands : Obligations.CommandsKeepOperands :=
  ⟨fun _ s hc => ⟨_, exec_command hc s, rfl, rfl, rfl, rfl, readWord_congr (completeCommand_operands _ s)⟩,
    runLines_cmd_operands⟩

/-- Settles O42: results with OK = 0 are those that raising an error leaves. -/
theorem failureIsPrecise : Obligations.FailureIsPrecise := by
  intro i s t hc h hok
  obtain rfl := eq_completeCommand hc h
  obtain ⟨c, hne, hr⟩ := (commandResults_shape s.lowPairOrder (commandOf i) s.operands).of_failed hok
  rw [completeCommand_results, hr]
  exact ⟨hne, failedWith_raiseError c, rfl⟩

/-- ENCODE reports no sentinel (R27, R28). -/
theorem encodeResults_no_sentinel (order : LowPairOrder) (o : Operands) :
    (encodeResults order o).status.na = false ∧ (encodeResults order o).status.unknown = false := by
  rcases encodeResults_cases o with ⟨c, h⟩ | h <;> rw [h] <;> exact ⟨rfl, rfl⟩

/-- TO_BINARY reports no sentinel (R27, R28). -/
theorem toBinaryResults_no_sentinel (o : Operands) :
    (toBinaryResults o).status.na = false ∧ (toBinaryResults o).status.unknown = false := by
  rcases binary_cases o.value o.bitLen.toNat with ⟨-, h⟩ | ⟨-, -, h⟩ | ⟨-, -, h⟩ <;> rw [toBinaryResults, h] <;>
    exact ⟨rfl, rfl⟩

/-- TO_TRISTATE reports NA only when the pairwise mapping of its string yields the sentinel, and never UNKNOWN (R27, R28). -/
theorem toTristateResults_sentinels (o : Operands) :
    ((toTristateResults o).status.na = true → triMap o.tinString = none) ∧
      (toTristateResults o).status.unknown = false := by
  by_cases hm : o.tinLen.toNat ≤ 64
  · cases ht : triMap o.tinString with
    | none => rw [toTristateResults_na hm ht]; exact ⟨fun _ => rfl, rfl⟩
    | some x => rw [toTristateResults_ok hm ht]; exact ⟨nofun, rfl⟩
  · rw [toTristateResults_tinLenRange (by omega)]
    exact ⟨nofun, rfl⟩

/-- A decoded capture reports NA only when the pairwise mapping yields the sentinel, and never UNKNOWN (R27, R28). -/
theorem diagDecoded_sentinels (n : Nat) (b : List Byte) :
    ((diagDecoded n b).status.na = true → triMap b = none) ∧ (diagDecoded n b).status.unknown = false := by
  unfold diagDecoded
  cases triMap b
  · exact ⟨fun _ => rfl, rfl⟩
  · exact ⟨nofun, rfl⟩

/-- DIAG of a value that is not 0 reports NA only when the pairwise mapping yields the sentinel, and never UNKNOWN (R27,
R28). -/
theorem diagResults_sentinels {o : Operands} (h0 : o.value ≠ 0#32) :
    ((diagResults o).status.na = true → triMap (binaryString o.value o.bitLen.toNat) = none) ∧
      (diagResults o).status.unknown = false := by
  rcases binary_cases o.value o.bitLen.toNat with ⟨hn, -⟩ | ⟨hn, hv, -⟩ | ⟨hn, hv, -⟩
  · rw [diagResults_bitLenRange h0 hn]
    exact ⟨nofun, rfl⟩
  · rw [diagResults_valueTooWide h0 hn hv]
    exact ⟨nofun, rfl⟩
  · rw [diagResults_decoded h0 hn hv]
    exact diagDecoded_sentinels _ _

/-- Which commands report NA, and from what (R27). -/
theorem commandResults_na {order : LowPairOrder} {c : Command} {o : Operands}
    (h : (commandResults order c o).status.na = true) :
    (c = .toTristate ∧ triMap o.tinString = none) ∨
      (c = .diag ∧ triMap (binaryString o.value o.bitLen.toNat) = none) := by
  cases c with
  | encode => exact absurd h (by simp [commandResults, encodeResults_no_sentinel])
  | toBinary => exact absurd h (by simp [commandResults, toBinaryResults_no_sentinel])
  | toTristate => exact .inl ⟨rfl, (toTristateResults_sentinels o).1 h⟩
  | diag =>
    by_cases h0 : o.value = 0#32
    · rw [commandResults, diagResults_unknown h0] at h
      cases h
    · exact .inr ⟨rfl, (diagResults_sentinels h0).1 h⟩
  | illegal => cases h

/-- Which commands report UNKNOWN, and from what (R28). -/
theorem commandResults_unknown_iff (order : LowPairOrder) (c : Command) (o : Operands) :
    (commandResults order c o).status.unknown = true ↔ c = .diag ∧ o.value = 0#32 := by
  cases c with
  | encode => simp [commandResults, encodeResults_no_sentinel]
  | toBinary => simp [commandResults, toBinaryResults_no_sentinel]
  | toTristate => simp [commandResults, toTristateResults_sentinels]
  | diag =>
    by_cases h0 : o.value = 0#32
    · simp [commandResults, diagResults_unknown h0, h0, unknownStatus]
    · simp [commandResults, diagResults_sentinels h0, h0]
  | illegal => simp [commandResults, raiseError, clearedResults]

/-- DIAG is run by its own name and by the write of its word to CMD, and by nothing else (R24, R71). -/
theorem commandOf_eq_diag_iff {i : Instr} (hc : runsCommand i = true) :
    commandOf i = .diag ↔ i = .diag ∨ i = .wr32 0x00#8 0x00000004#32 := by
  constructor
  · intro h
    rcases runsCommand_cases hc with ⟨e, -⟩ | ⟨e, -⟩ | ⟨e, -⟩ | ⟨-, hi⟩ | ⟨e, -⟩
    case inr.inr.inr.inl => exact hi
    all_goals rw [h] at e; cases e
  · rintro (rfl | rfl) <;> rfl

/-- TO_TRISTATE is run by its own name and by the write of its word to CMD, and by nothing else (R24, R71). -/
theorem eq_toTristate_or_write_of_commandOf {i : Instr} (hc : runsCommand i = true) (h : commandOf i = .toTristate) :
    i = .toTristate ∨ i = .wr32 0x00#8 0x00000003#32 := by
  rcases runsCommand_cases hc with ⟨e, -⟩ | ⟨e, -⟩ | ⟨-, hi⟩ | ⟨e, -⟩ | ⟨e, -⟩
  case inr.inr.inl => exact hi
  all_goals rw [h] at e; cases e

/-- Settles O49: OK = 1 is relation (c) of R45, and the command is named by `commandResults_na`. -/
theorem naOnlyFromPairwiseMapping : Obligations.NaOnlyFromPairwiseMapping := by
  intro i s t hc h hna
  obtain rfl := eq_completeCommand hc h
  rw [completeCommand_results] at hna ⊢
  refine ⟨(commandResults_shape _ _ _).statusLaws.sentinelIsOk (.inl hna), ?_⟩
  rcases commandResults_na hna with ⟨hcmd, hmap⟩ | ⟨hcmd, hmap⟩
  · exact .inl ⟨eq_toTristate_or_write_of_commandOf hc hcmd, hmap⟩
  · exact .inr ⟨(commandOf_eq_diag_iff hc).1 hcmd, hmap⟩

/-- Settles O50: `commandResults_unknown_iff` names the command, and OK = 1 is relation (c) of R45. -/
theorem unknownOnlyFromZeroDiag : Obligations.UnknownOnlyFromZeroDiag := by
  intro i s t hc h
  obtain rfl := eq_completeCommand hc h
  rw [completeCommand_results, ← commandOf_eq_diag_iff hc]
  exact ⟨commandResults_unknown_iff _ _ _,
    fun hu => (commandResults_shape _ _ _).statusLaws.sentinelIsOk (.inr hu)⟩

/-! The host's lines (R60, R84). -/

/-- An 8-bit register keeps a character written to it (R34). -/
theorem setWidth_setWidth_byte (b : Byte) : (b.setWidth 32).setWidth 8 = b := by
  rw [BitVec.setWidth_setWidth_of_le b (by decide), BitVec.setWidth_eq]

/-- Settles O55: the first line stores the characters 0 to 3, the second character 4. -/
theorem setGroupLoadsGroup : Obligations.SetGroupLoadsGroup := by
  intro s c0 c1 c2 c3 c4
  refine ⟨_, (runLines_wr (by decide) rfl _ _ s).trans (runLines_wr (by decide) rfl _ [] _), ?_, rfl, rfl⟩
  show [Sys2Proof.Word.byte (wordOfBytes c0 c1 c2 c3) 0, Sys2Proof.Word.byte (wordOfBytes c0 c1 c2 c3) 1,
    Sys2Proof.Word.byte (wordOfBytes c0 c1 c2 c3) 2, Sys2Proof.Word.byte (wordOfBytes c0 c1 c2 c3) 3,
    (c4.setWidth 32).setWidth 8] = _
  rw [byte_wordOfBytes _ _ _ _ (by decide), byte_wordOfBytes _ _ _ _ (by decide), byte_wordOfBytes _ _ _ _ (by decide),
    byte_wordOfBytes _ _ _ _ (by decide), setWidth_setWidth_byte]
  rfl

/-- Byte `j` of the word of LDTIN at `k` is character `k + j` (R84). -/
theorem byte_stringWord (str : List Byte) (k : Nat) {j : Nat} (hj : j < 4) :
    Sys2Proof.Word.byte (stringWord str k) j = str.getD (k + j) 0#8 := by
  rw [stringWord, byte_wordOfBytes _ _ _ _ hj]
  interval_cases j <;> rfl

/-- A line that writes a TIN word stores it and changes nothing else of the operands (R55, R83). -/
theorem runLines_wr_tin {k : Nat} (hk : k < 16) (w : Word) (ls : List HostLine) (s : State) :
    runLines (.wr (.tin (4 * k)) w :: ls) s =
      runLines ls (storeOperands { s.operands with tin := Memory.writeWord s.operands.tin (4 * k) w } s) := by
  have hl : locate (offsetOf (.tin (4 * k))) = .tin (4 * k) := locate_tin_offset k hk
  rw [runLines_wr (r := .tin (4 * k)) (tin_offset_ne_cmd hk) (wordAligned_ofNat 0x40 k (by omega) rfl), hl, writeLocation]

/-- The word writes of LDTIN make every byte they cover the string's, and keep every byte that already is (R84). -/
theorem runLines_tin_words (str : List Byte) (ks : List Nat) :
    ∀ s : State, (∀ k ∈ ks, k < 16) → Memory.wf 64 s.operands.tin = true →
      ∃ t, runLines (ks.map fun k => .wr (.tin (4 * k)) (stringWord str (4 * k))) s = .next t ∧
        t.operands.tinLen = s.operands.tinLen ∧ t.results = s.results ∧
        ∀ j, j / 4 ∈ ks ∨ Memory.read s.operands.tin j = str.getD j 0#8 →
          Memory.read t.operands.tin j = str.getD j 0#8 := by
  induction ks with
  | nil => exact fun s _ _ => ⟨s, rfl, rfl, rfl, fun j hj => hj.resolve_left (by simp)⟩
  | cons k ks ih =>
    intro s hks hwf
    obtain ⟨hk, hks⟩ := List.forall_mem_cons.1 hks
    obtain ⟨t, ht, hlen, hr, hread⟩ := ih (storeOperands
      { s.operands with tin := Memory.writeWord s.operands.tin (4 * k) (stringWord str (4 * k)) } s) hks
      (Memory.wf_writeWord _ (by omega) hwf)
    refine ⟨t, (runLines_wr_tin hk _ _ s).trans ht, hlen, hr, fun j hj => hread j ?_⟩
    rw [storeOperands_operands, Memory.read_writeWord _ j (by omega) hwf]
    split_ifs with hcov
    · rw [byte_stringWord str (4 * k) (by omega), Nat.add_sub_cancel' hcov.1]
      exact .inr rfl
    · have hjk : j / 4 ≠ k := by omega
      simpa [hjk] using hj

/-- Settles O56: LDTIN writes the length, and then words that cover every character of the string. -/
theorem ldTinLoadsString : Obligations.LdTinLoadsString := by
  intro s str ⟨htin, _, _⟩ hlen
  obtain ⟨t, ht, htl, hr, hread⟩ := runLines_tin_words str (List.range ((str.length + 3) / 4))
    (storeOperands (writeLocation (BitVec.ofNat 32 str.length) s.operands .tinLen) s)
    (fun k hk => by have := List.mem_range.1 hk; omega) htin
  have htl' : t.operands.tinLen.toNat = str.length := by
    rw [htl]
    show ((BitVec.ofNat 32 str.length).setWidth 8).toNat = _
    rw [BitVec.toNat_setWidth, BitVec.toNat_ofNat]
    omega
  refine ⟨t, ?_, htl', ?_, hr⟩
  · refine (runLines_wr (by decide) rfl _ _ s).trans ?_
    rw [wordSteps, List.map_map]
    exact ht
  · rw [Operands.tinString, htl']
    apply List.ext_getElem (Memory.length_loadBytes _ _)
    intro j h1 h2
    have hcov : j / 4 ∈ List.range ((str.length + 3) / 4) := List.mem_range.2 (by omega)
    have hj := hread j (.inl hcov)
    rw [List.getD_eq_getElem _ _ h2] at hj
    simpa [Memory.loadBytes] using hj

end Sys2Proof.Machine

/-! The statements on 20_memory: which accesses are accepted (O13, O21), what the decoder accepts (O16), how a step serves an
access (O12, O19, O20), reads (O6, O7), writes and repeated accesses (O9, O44, O45), and commands after writes (O46). -/

namespace Sys2Proof.Machine
open Sys2Proof.Safety

/-! Which accesses are accepted (R51). -/

/-- What an instruction is: one that runs a command, an accepted write elsewhere, an accepted read, or one that is ill formed
and refused from every state (R24, R51, R55). -/
theorem instr_cases (i : Instr) :
    runsCommand i = true ∨
      (∃ off data, i = .wr32 off data ∧ off ≠ 0x00#8 ∧ wordAligned off = true) ∨
      (∃ off, i = .rd32 off ∧ wordAligned off = true) ∨
      (i.wellFormed = false ∧ ∃ d, ∀ s, exec i s = .next (refuseAccess d s)) := by
  cases i with
  | encode | toBinary | toTristate | diag => exact .inl rfl
  | wr32 off data =>
    by_cases h0 : off = 0x00#8
    · exact .inl (by simp [runsCommand, h0])
    · cases ha : wordAligned off
      · exact .inr (.inr (.inr ⟨by simp [Instr.wellFormed, ha], .write, exec_wr32_refused ha data⟩))
      · exact .inr (.inl ⟨off, data, rfl, h0, ha⟩)
  | rd32 off =>
    cases ha : wordAligned off
    · exact .inr (.inr (.inr ⟨ha, .read, exec_rd32_refused ha⟩))
    · exact .inr (.inr (.inl ⟨off, rfl, ha⟩))

/-- A well-formed instruction is answered OK and records no fault (R51, R76). -/
theorem exec_of_wellFormed {i : Instr} (hw : i.wellFormed = true) (s : State) :
    ∃ t, exec i s = .next t ∧ (∃ d, t.response = some { resp := .ok, rdata := d }) ∧ t.hostFault = s.hostFault ∧
      t.inputs = s.inputs := by
  rcases instr_cases i with hc | ⟨off, data, rfl, h0, ha⟩ | ⟨off, rfl, ha⟩ | ⟨hw', -⟩
  · exact ⟨_, exec_command hc s, ⟨_, rfl⟩, rfl, rfl⟩
  · exact ⟨_, exec_wr32_store h0 ha data s, ⟨_, rfl⟩, rfl, rfl⟩
  · exact ⟨_, exec_rd32 ha s, ⟨_, rfl⟩, rfl, rfl⟩
  · rw [hw'] at hw; cases hw

/-- Whatever an instruction does, it answers a response, takes no input and clears no recorded fault (R51, R56). -/
theorem exec_answers (i : Instr) (s : State) :
    ∃ t, exec i s = .next t ∧ t.inputs = s.inputs ∧ (s.hostFault = true → t.hostFault = true) ∧ t.response ≠ none := by
  rcases exec_cases i s with ⟨-, hx⟩ | ⟨off, data, -, -, -, hx⟩ | ⟨off, -, -, hx⟩ | ⟨d, -, hx⟩
  · exact ⟨_, hx, rfl, id, nofun⟩
  · exact ⟨_, hx, rfl, id, nofun⟩
  · exact ⟨_, hx, rfl, id, nofun⟩
  · exact ⟨_, hx, rfl, fun _ => rfl, nofun⟩

/-- Settles O21. -/
theorem everyInstructionAnswers : Obligations.EveryInstructionAnswers := by
  intro i s
  obtain ⟨t, hx, hin, hfault, hresp⟩ := exec_answers i s
  exact ⟨t, hx, hin, exec_lowPairOrder hx, hfault, hresp⟩

/-- Settles O13: an offset that is not a multiple of 4 is not aligned, and the port refuses it. -/
theorem misalignedInstructionRefused : Obligations.MisalignedInstructionRefused := by
  intro s off data hoff
  have ha : wordAligned off = false := by
    rw [← Bool.not_eq_true, wordAligned_iff]
    exact hoff
  exact ⟨⟨_, exec_wr32_refused ha data s, rfl, rfl, rfl, rfl⟩, ⟨_, exec_rd32_refused ha s, rfl, rfl, rfl, rfl⟩⟩

/-! What the decoder accepts (R51, R76). -/

/-- An access the decoder accepts is an aligned 32-bit one, and its direction says what it names (R51, R76). -/
theorem of_decodeAccess_eq_ok {width : Width} {x : Txn} {i : Instr} (h : decodeAccess width x = .ok i) :
    width = .w32 ∧ wordAligned (txnOff x) = true ∧
      ((txnDir x = .write ∧ i = decodeWrite (txnOff x) (txnData x)) ∨ (txnDir x = .read ∧ i = .rd32 (txnOff x))) := by
  have hacc : ¬(width ≠ .w32 ∨ wordAligned (txnOff x) = false) := by
    rw [← decodeAccess_error_iff, h]
    rintro ⟨e, he⟩
    cases he
  obtain ⟨rfl, ha⟩ : width = .w32 ∧ wordAligned (txnOff x) = true := by simpa using hacc
  rw [decodeAccess_ok ha] at h
  refine ⟨rfl, ha, ?_⟩
  cases hd : txnDir x <;> rw [hd] at h <;> obtain rfl := Except.ok.inj h
  · exact .inr ⟨rfl, rfl⟩
  · exact .inl ⟨rfl, rfl⟩

/-- The instruction of an aligned write is well formed (R24, R71). -/
theorem decodeWrite_wellFormed {off : Offset} (ha : wordAligned off = true) (data : Word) :
    (decodeWrite off data).wellFormed = true := by
  rcases decodeWrite_cases off data with ⟨h, hn⟩ | ⟨-, ⟨-, h⟩ | ⟨-, h⟩ | ⟨-, h⟩ | ⟨-, h⟩⟩ <;> rw [h]
  case inl => rcases hn with hn | hn <;> simp [Instr.wellFormed, ha, hn]
  all_goals rfl

/-- Whatever name a write is given, its transaction is the write's (R71, R76). -/
theorem encodeTxn_decodeWrite (off : Offset) (data : Word) : encodeTxn (decodeWrite off data) = writeTxn off data := by
  rcases decodeWrite_cases off data with ⟨h, -⟩ | ⟨rfl, ⟨rfl, h⟩ | ⟨rfl, h⟩ | ⟨rfl, h⟩ | ⟨rfl, h⟩⟩ <;> rw [h] <;> rfl

/-- DIR is bit 40 (R76). -/
theorem txnDir_eq_write_iff (x : Txn) : txnDir x = .write ↔ x.getLsbD 40 = true := by
  unfold txnDir
  cases x.getLsbD 40 <;> decide

/-- The decoder answers well-formed instructions only (R51). -/
theorem decodeAccess_wellFormed {width : Width} {x : Txn} {i : Instr} (h : decodeAccess width x = .ok i) :
    i.wellFormed = true := by
  obtain ⟨-, ha, ⟨-, rfl⟩ | ⟨-, rfl⟩⟩ := of_decodeAccess_eq_ok h
  · exact decodeWrite_wellFormed ha _
  · exact ha

/-- The read transaction at the offset of `x` is `x` less DIR and DATA (R76). -/
theorem readTxn_txnOff (x : Txn) : readTxn (txnOff x) = x &&& 0x0FF00000000#41 := by
  have hmask : ∀ k < 41, (0x0FF00000000#41).getLsbD k = decide (32 ≤ k ∧ k < 40) := by decide
  apply BitVec.eq_of_getLsbD_eq
  intro k hk
  rw [readTxn, getLsbD_txn, BitVec.getLsbD_and, hmask k hk]
  split_ifs with h1 h2
  · simp [h1]
  · rw [txnOff, BitVec.getLsbD_extractLsb', Nat.add_sub_cancel' (by omega)]
    simp [show k - 32 < 8 by omega, show 32 ≤ k by omega, h2]
  · simp [h2]

/-- Settles O16: a write is known by its three fields, a read keeps its offset alone. -/
theorem decodeAcceptsOnlyEncodings : Obligations.DecodeAcceptsOnlyEncodings := by
  intro width x i h
  obtain ⟨hwidth, -, ⟨hdir, rfl⟩ | ⟨hdir, rfl⟩⟩ := of_decodeAccess_eq_ok h <;>
    refine ⟨hwidth, decodeAccess_wellFormed h, ?_⟩
  · rw [if_pos ((txnDir_eq_write_iff x).1 hdir), encodeTxn_decodeWrite]
    exact txn_eq_of_fields (by rw [txnDir_writeTxn, hdir]) (txnOff_writeTxn _ _) (txnData_writeTxn _ _)
  · rw [if_neg (by rw [← txnDir_eq_write_iff, hdir]; nofun)]
    exact readTxn_txnOff x

/-! How a step serves an access (R51, R56, R60). -/

/-- An accepted access runs its instruction (R56, R60). -/
theorem step_access_ok {s : State} {width : Width} {x : Txn} {rest : List PortInput} {i : Instr}
    (hi : s.inputs = .access width x :: rest) (hd : decodeAccess width x = .ok i) :
    step s = exec i (withInputs rest s) := by
  rw [step, hi]
  simp only [hd]

/-- A refused access is answered ERR (R51). -/
theorem step_access_error {s : State} {width : Width} {x : Txn} {rest : List PortInput} {e : DecodeError}
    (hi : s.inputs = .access width x :: rest) (hd : decodeAccess width x = .error e) :
    step s = .next (refuseAccess (txnDir x) (withInputs rest s)) := by
  rw [step, hi]
  simp only [hd, serveRefused]

/-- Settles O19. -/
theorem stepRunsDecodedInstruction : Obligations.StepRunsDecodedInstruction := fun _ _ _ _ _ => step_access_ok

/-- Settles O20: of the five kinds of step only the reset during a transaction stops. -/
theorem everyStepAnswers : Obligations.EveryStepAnswers := by
  intro s
  rcases step_cases s with ⟨hi, hs⟩ | ⟨rest, hi, hs⟩ | ⟨w, x, rest, hi, hs⟩ | ⟨w, x, rest, i, hi, -, hs⟩ |
    ⟨w, x, rest, e, hi, -, hs⟩
  · simp [hi, hs]
  · simp [hi, hs]
  · simp [hi, hs]
  · obtain ⟨t, ht, -⟩ := exec_answers i (withInputs rest s)
    simp [hi, hs, ht]
  · simp [hi, hs]

/-- Settles O12: what the decoder accepts is well formed and so answered OK, the rest is refused, and a recorded fault stays
in each kind of step. -/
theorem portAcceptsOnlyAlignedWords : Obligations.PortAcceptsOnlyAlignedWords := by
  refine ⟨fun s width x rest hi => ?_, fun s t h hfault => ?_⟩
  · have herr := decodeAccess_error_iff width x
    rw [← Bool.not_eq_true, wordAligned_txnOff_iff] at herr
    cases hd : decodeAccess width x with
    | ok i =>
      obtain ⟨t, ht, hresp, hfault, hin⟩ := exec_of_wellFormed (decodeAccess_wellFormed hd) (withInputs rest s)
      refine ⟨t, (step_access_ok hi hd).trans ht, hin, ?_⟩
      obtain ⟨hw, ha, -⟩ := of_decodeAccess_eq_ok hd
      rw [if_pos ⟨hw, (wordAligned_txnOff_iff x).1 ha⟩]
      exact ⟨hresp, hfault⟩
    | error e =>
      refine ⟨_, step_access_error hi hd, rfl, ?_⟩
      rw [if_neg (by have := herr.1 ⟨e, hd⟩; tauto)]
      refine ⟨?_, rfl, rfl, rfl⟩
      rw [refuseAccess_response, txnDir]
      cases x.getLsbD 40 <;> rfl
  · rcases step_cases s with ⟨-, hs⟩ | ⟨rest, -, hs⟩ | ⟨w, x, rest, -, hs⟩ | ⟨w, x, rest, i, -, -, hs⟩ |
      ⟨w, x, rest, e, -, -, hs⟩ <;> rw [hs] at h
    · obtain rfl := Host.Outcome.next.inj h
      exact hfault
    · obtain rfl := Host.Outcome.next.inj h
      exact hfault
    · cases h
    · obtain ⟨t', ht, -, hkeep, -⟩ := exec_answers i (withInputs rest s)
      obtain rfl := Host.Outcome.next.inj (ht.symm.trans h)
      exact hkeep hfault
    · obtain rfl := Host.Outcome.next.inj h
      rfl

/-! Reads (R52, R57). -/

/-- No word of the register space depends on the last response (R57). -/
@[simp] theorem readWord_respond (r : Option Word) (s : State) (off : Offset) :
    readWord (respond r s) off = readWord s off := rfl

/-- Settles O6. -/
theorem readChangesNothingElse : Obligations.ReadChangesNothingElse := fun s _ ha =>
  ⟨_, exec_rd32 ha s, rfl, rfl, rfl, rfl, rfl, rfl, readWord_respond _ s⟩

/-- A byte of a buffer at an aligned base stands in the word that covers it, at the place of its offset (R52). -/
theorem read_eq_extractLsb' {s : State} {base size : Nat} (hbase : base % 4 = 0) {m : Memory}
    (hm : ∀ k < size, readWord s (BitVec.ofNat 8 (base + 4 * k)) = Memory.readWord m (4 * k)) :
    ∀ i < 4 * size, Memory.read m i =
      (readWord s (BitVec.ofNat 8 (base + i - (base + i) % 4))).extractLsb' (8 * ((base + i) % 4)) 8 := by
  intro i hi
  rw [show base + i - (base + i) % 4 = base + 4 * (i / 4) by omega, show (base + i) % 4 = i % 4 by omega,
    hm (i / 4) (by omega)]
  refine Eq.trans ?_ (Memory.byte_readWord m (4 * (i / 4)) (Nat.mod_lt i (by decide))).symm
  rw [Nat.div_add_mod]

/-- Settles O7. -/
theorem littleEndianPacking : Obligations.LittleEndianPacking := by
  intro s
  refine ⟨read_eq_extractLsb' (size := 16) rfl fun k hk => ?_, read_eq_extractLsb' (size := 16) rfl fun k hk => ?_,
    read_eq_extractLsb' (size := 8) rfl fun k hk => ?_, fun k hk => ?_, (setWidth_low s.operands.groupHi).symm,
    fun h0 h1 h2 h3 => ?_⟩
  · rw [readWord, locate_tin_offset k hk, readLocation]
  · rw [readWord, locate_out_offset k hk, readLocation]
  · rw [readWord, locate_tout_offset k hk, readLocation]
  · interval_cases k <;> rfl
  · show Memory.readWord s.results.out 0 = _
    rw [Memory.readWord, h0, h1, h2, h3]
    rfl

/-! Writes and repeated accesses (R55, R57, R185). -/

/-- Words of a buffer that do not overlap the written one read as before, whatever form the buffer has. -/
theorem Memory.readWord_writeWord_other (m : Memory) {i j : Nat} (w : Word) (h : j + 4 ≤ i ∨ i + 4 ≤ j) :
    Memory.readWord (Memory.writeWord m i w) j = Memory.readWord m j := by
  simp only [Memory.readWord]
  rw [Memory.read_writeWord_other m w (by omega), Memory.read_writeWord_other m w (by omega),
    Memory.read_writeWord_other m w (by omega), Memory.read_writeWord_other m w (by omega)]

/-- A stored word changes what no other location reads, TIN words that do not overlap it among them (R55). -/
theorem readLocation_storeOperands_other {l l' : Location} (hne : l ≠ l')
    (htin : ∀ i j, l = .tin i → l' = .tin j → j + 4 ≤ i ∨ i + 4 ≤ j) (w : Word) (s : State) :
    readLocation (storeOperands (writeLocation w s.operands l) s) l' = readLocation s l' := by
  cases l' with
  | cmd | status | diagInfo | out | tout | reserved => rfl
  | tin j =>
    show Memory.readWord (writeLocation w s.operands l).tin j = Memory.readWord s.operands.tin j
    rw [tin_writeLocation]
    cases l with
    | tin i => exact Memory.readWord_writeWord_other _ w (htin i j rfl rfl)
    | _ => rfl
  | encCtrl | device | groupLo | groupHi | value | bitLen | tinLen =>
    cases l <;> first | rfl | exact absurd rfl hne

/-- Settles O9: two aligned offsets name different locations, and of TIN words that do not overlap. -/
theorem writeFrame : Obligations.WriteFrame := by
  intro s off data ha h0
  refine ⟨_, exec_wr32_store h0 ha data s, rfl, rfl, rfl, rfl, rfl, fun off' ha' hne => ?_⟩
  have hl : locate off ≠ locate off' := fun h => hne (locate_inj h).symm
  refine readLocation_storeOperands_other hl (fun i j hi hj => ?_) data s
  have hij : i ≠ j := fun e => hl (by rw [hi, hj, e])
  have := locate_tin_bound ha hi
  have := locate_tin_bound ha' hj
  omega

/-- The operands after a write that may be refused (R51, R55). -/
def writtenOperands (off : Offset) (data : Word) (o : Operands) : Operands :=
  if wordAligned off then writeLocation data o (locate off) else o

/-- What a write at any offset but CMD leaves, accepted or refused (R51, R55). -/
theorem of_exec_wr32 {off : Offset} (h0 : off ≠ 0x00#8) {data : Word} {s t : State}
    (h : exec (.wr32 off data) s = .next t) :
    t.operands = writtenOperands off data s.operands ∧ t.results = s.results ∧
      t.hostFault = (s.hostFault || !wordAligned off) := by
  rw [writtenOperands]
  cases ha : wordAligned off
  · obtain rfl := Host.Outcome.next.inj ((exec_wr32_refused ha data s).symm.trans h)
    exact ⟨rfl, rfl, (Bool.or_true _).symm⟩
  · obtain rfl := Host.Outcome.next.inj ((exec_wr32_store h0 ha data s).symm.trans h)
    exact ⟨rfl, rfl, (Bool.or_false _).symm⟩

/-- Writes at two offsets commute, accepted or refused (R185). -/
theorem writtenOperands_comm {o : Operands} {off off' : Offset} (hne : off ≠ off') (htin : Memory.wf 64 o.tin = true)
    (data data' : Word) :
    writtenOperands off' data' (writtenOperands off data o) = writtenOperands off data (writtenOperands off' data' o) := by
  unfold writtenOperands
  split_ifs with ha' ha
  · exact writeLocation_comm o data data' off off' ha ha' hne htin
  all_goals rfl

/-- Settles O45. -/
theorem operandWriteOrderIsFree : Obligations.OperandWriteOrderIsFree := by
  intro s t t' u u' off off' data data' ⟨htin, _, _⟩ h0 h0' hne ht hu ht' hu'
  obtain ⟨hto, htr, htf⟩ := of_exec_wr32 h0 ht
  obtain ⟨huo, hur, huf⟩ := of_exec_wr32 h0' hu
  obtain ⟨hto', htr', htf'⟩ := of_exec_wr32 h0' ht'
  obtain ⟨huo', hur', huf'⟩ := of_exec_wr32 h0 hu'
  refine ⟨?_, by rw [hur, htr, hur', htr'], by rw [huf, htf, huf', htf', Bool.or_right_comm]⟩
  rw [huo, hto, huo', hto']
  exact writtenOperands_comm hne htin data data'

/-- Settles O44: a command takes the operands, which it keeps; a store repeated is one store; a read and a refusal leave
what they answer from. -/
theorem repeatedAccessIsIdempotent : Obligations.RepeatedAccessIsIdempotent := by
  intro i s t ⟨htin, _, _⟩ h
  rcases instr_cases i with hc | ⟨off, data, rfl, h0, ha⟩ | ⟨off, rfl, ha⟩ | ⟨-, d, hx⟩
  · obtain rfl := eq_completeCommand hc h
    exact exec_command hc _
  · obtain rfl := Host.Outcome.next.inj ((exec_wr32_store h0 ha data s).symm.trans h)
    rw [exec_wr32_store h0 ha, storeOperands_operands, writeLocation_idem _ data off ha htin]
    rfl
  · obtain rfl := Host.Outcome.next.inj ((exec_rd32 ha s).symm.trans h)
    rw [exec_rd32 ha, readWord_respond]
    rfl
  · obtain rfl := Host.Outcome.next.inj ((hx s).symm.trans h)
    exact hx _

/-! Commands after writes (R60, R191, R194). -/

/-- A TIN word after a write, byte by byte (R40, R52). -/
theorem writeLocation_tin_bytes {o : Operands} (htin : Memory.wf 64 o.tin = true) (data : Word) {k : Nat} (hk : k < 16) :
    ∃ m, writeLocation data o (locate (BitVec.ofNat 8 (0x40 + 4 * k))) = { o with tin := m } ∧
      ∀ i, Memory.read m i =
        if 4 * k ≤ i ∧ i < 4 * k + 4 then data.extractLsb' (8 * (i - 4 * k)) 8 else Memory.read o.tin i := by
  rw [locate_tin_offset k hk]
  exact ⟨_, rfl, fun i => Memory.read_writeWord data i (by omega) htin⟩

/-- TO_BINARY right after the writes of its two operands (R60, R121, R191). -/
theorem runLines_toBinary (s : State) {v n : Word} (hn : n.toNat ≤ 64) (hv : v.toNat < 2 ^ n.toNat) :
    ∃ t, runLines [.wr .value v, .wr .bitLen n, .wr .cmd 0x00000002#32] s = .next t ∧
      t.results.status = okStatus n.toNat ∧ t.results.out = outOf (binaryString v n.toNat) := by
  refine ⟨_, (runLines_wr (by decide) rfl v _ s).trans
    ((runLines_wr (by decide) rfl n _ _).trans (runLines_wr_cmd 0x00000002#32 [] _)), ?_⟩
  have hr : toBinaryResults { s.operands with value := v, bitLen := n } = _ := toBinaryResults_ok hn hv
  exact ⟨congrArg Results.status hr, congrArg Results.out hr⟩

/-- Settles O46. -/
theorem commandUsesLatestOperands : Obligations.CommandUsesLatestOperands := by
  refine ⟨fun s off data w ha h0 => ⟨_, exec_wr32_store h0 ha data s, fun p hp => ?_⟩,
    fun o data => ⟨?_, fun htin k hk => writeLocation_tin_bytes htin data hk⟩,
    fun s v n hn hv => ?_⟩
  · obtain ⟨hc, hcmd⟩ : runsCommand p.1 = true ∧ commandOf p.1 = p.2 := by
      revert p
      simp [runsCommand, commandOf]
    exact ⟨_, exec_command hc _, by rw [hcmd]; rfl⟩
  · have hlow : data.extractLsb' 0 8 = data.setWidth 8 := (BitVec.setWidth_eq_extractLsb' (by decide)).symm
    simp only [List.forall_mem_cons, hlow]
    exact ⟨rfl, rfl, rfl, rfl, rfl, rfl, rfl, nofun⟩
  · obtain ⟨t, ht, hok, hout⟩ := runLines_toBinary s hn hv
    refine ⟨t, ht, by rw [hok]; rfl, ?_⟩
    have hload := loadBytes_outOf (binaryString v n.toNat)
    rw [length_binaryString] at hload
    rw [hout, hload]
    rfl

end Sys2Proof.Machine

/-! The statements on 30_encoding: decode and encode (O14, O15, O18), illegal command words (O40), the group check at
initialisation (O27), and code words decoded back (O38). -/

namespace Sys2Proof.Machine
open Sys2Proof.Safety

/-! Decode and encode (R70 to R73, R76). -/

/-- ILLEGAL is every word but the four of R71. -/
theorem decodeCommand_eq_illegal_iff_ne (w : Word) :
    decodeCommand w = .illegal ↔
      w ≠ 0x00000001#32 ∧ w ≠ 0x00000002#32 ∧ w ≠ 0x00000003#32 ∧ w ≠ 0x00000004#32 := by
  simp [decodeCommand_illegal_iff, isCommandWord, and_assoc]

/-- Settles O14: the four legal words by evaluation, and a word that is none of them selects ILLEGAL. -/
theorem commandWordsDecodeWhole : Obligations.CommandWordsDecodeWhole := by
  intro w
  have hill := decodeCommand_eq_illegal_iff_ne w
  rcases decodeCommand_cases w with ⟨rfl, -⟩ | ⟨rfl, -⟩ | ⟨rfl, -⟩ | ⟨rfl, -⟩ | ⟨-, h⟩
  case inr.inr.inr.inr =>
    obtain ⟨h1, h2, h3, h4⟩ := hill.1 h
    simp [h, h1, h2, h3, h4]
  all_goals decide

/-- An aligned write transaction is decoded by its two fields (R76). -/
theorem decodeAccess_writeTxn {off : Offset} (ha : wordAligned off = true) (data : Word) :
    decodeAccess .w32 (writeTxn off data) = .ok (decodeWrite off data) := by
  rw [decodeAccess_ok (by rwa [txnOff_writeTxn]), txnDir_writeTxn, txnOff_writeTxn, txnData_writeTxn]

/-- An aligned read transaction is decoded by its offset (R76). -/
theorem decodeAccess_readTxn {off : Offset} (ha : wordAligned off = true) :
    decodeAccess .w32 (readTxn off) = .ok (.rd32 off) := by
  rw [decodeAccess_ok (by rwa [txnOff_readTxn]), txnDir_readTxn, txnOff_readTxn]

/-- Settles O15: a command's transaction is the write of its word to CMD; any other write is decoded as itself
(`decodeWrite_self`), and a read by its offset. -/
theorem decodeOfEncode : Obligations.DecodeOfEncode := by
  intro i hw
  cases i with
  | encode | toBinary | toTristate | diag => exact decodeAccess_writeTxn (off := 0x00#8) rfl _
  | wr32 off data =>
    obtain ⟨ha, hn⟩ : wordAligned off = true ∧ (off ≠ 0x00#8 ∨ isCommandWord data = false) := by
      simpa [Instr.wellFormed] using hw
    rw [encodeTxn, decodeAccess_writeTxn ha, decodeWrite_self hn]
  | rd32 off => exact decodeAccess_readTxn hw

/-- Settles O18: the accepted words are the encodings of their instructions, the last two are refused. -/
theorem sampleWordsDecode : Obligations.SampleWordsDecode :=
  ⟨decodeOfEncode .encode rfl, decodeOfEncode .toBinary rfl, decodeOfEncode .toTristate rfl, decodeOfEncode .diag rfl,
    decodeOfEncode (.wr32 0x10#8 0x44434241#32) rfl, decodeOfEncode (.wr32 0x00#8 0#32) rfl,
    decodeOfEncode (.rd32 0x04#8) rfl, rfl, rfl⟩

/-! Illegal command words (R72). -/

/-- Settles O40: the word selects ILLEGAL, whose results are those that raising cause 1 leaves. -/
theorem illegalCommandFails : Obligations.IllegalCommandFails := by
  intro s w h1 h2 h3 h4
  refine ⟨_, exec_command (i := .wr32 0x00#8 w) rfl s, rfl, ?_⟩
  rw [readWord_status, completeCommand_results, commandOf, (decodeCommand_eq_illegal_iff_ne w).2 ⟨h1, h2, h3, h4⟩,
    commandResults]
  exact ⟨failedWith_raiseError .illegalCmd, rfl, rfl⟩

/-! The group check at initialisation (R186). -/

/-- Lines appended to lines that answer run from the state those leave (R60). -/
theorem runLines_append (ls' : List HostLine) {t : State} :
    ∀ {ls : List HostLine} {s : State}, runLines ls s = .next t → runLines (ls ++ ls') s = runLines ls' t
  | [], s, h => by
    obtain rfl := Host.Outcome.next.inj h
    rfl
  | l :: ls, s, h => by
    cases hl : exec (lineInstr l) s with
    | next u =>
      rw [runLines_cons hl] at h
      exact (runLines_cons hl _).trans (runLines_append ls' h)
    | fault r | refused r =>
      rw [runLines, hl] at h
      cases h

/-- The word SETENC writes leaves its two fields in ENC_CTRL (R32, R84). -/
theorem encCtrl_ofWord_setEnc (on present : Bool) :
    EncCtrl.ofWord (0#30 ++ BitVec.ofBool present ++ BitVec.ofBool on) = { turnOn := on, groupPresent := present } := by
  cases on <;> cases present <;> decide

/-- With a group present and selector 0, ENCODE fails exactly for a short group (R101, R162). -/
theorem encodeResults_selector_zero (order : LowPairOrder) {o : Operands} (hp : o.encCtrl.groupPresent = true)
    (hd : o.device = 0#32) :
    (terminator ∈ o.group ∧ encodeResults order o = raiseError .groupShort) ∨
      (terminator ∉ o.group ∧ (encodeResults order o).status = okStatus Config.codeLen) := by
  have hrange : deviceInRange o.device = true := by rw [hd]; decide
  rw [encodeResults, if_neg (by simp [hp]), if_neg (by simp [hrange])]
  split_ifs with hg
  · exact .inl ⟨hg, rfl⟩
  · exact .inr ⟨hg, rfl⟩

/-- What the group check leaves: the results of ENCODE for the group, present, with selector 0 (R84, R186). -/
theorem runLines_groupCheck (s : State) (on : Bool) (c0 c1 c2 c3 c4 : Byte) :
    ∃ t, runLines (groupCheck on c0 c1 c2 c3 c4) s = .next t ∧
      t.results = encodeResults t.lowPairOrder t.operands ∧ t.operands.encCtrl.groupPresent = true ∧
      t.operands.device = 0#32 ∧ t.operands.group = [c0, c1, c2, c3, c4] := by
  obtain ⟨t, ht, hg, -⟩ := setGroupLoadsGroup s c0 c1 c2 c3 c4
  have hrun := (runLines_wr (r := .encCtrl) (by decide) rfl (0#30 ++ BitVec.ofBool true ++ BitVec.ofBool on) _ t).trans
    ((runLines_wr (r := .device) (by decide) rfl 0#32 _ _).trans (runLines_wr_cmd 0x00000001#32 [] _))
  rw [groupCheck, List.append_assoc, List.append_assoc, runLines_append _ ht]
  exact ⟨_, hrun, rfl, congrArg EncCtrl.groupPresent (encCtrl_ofWord_setEnc on true), rfl, hg⟩

/-- Settles O27: with the group present and selector 0 only the terminator check is left. -/
theorem groupCheckAcceptsFullGroups : Obligations.GroupCheckAcceptsFullGroups := by
  intro s on c0 c1 c2 c3 c4
  obtain ⟨t, ht, hr, hp, hd, hg⟩ := runLines_groupCheck s on c0 c1 c2 c3 c4
  have hfull : terminator ∉ t.operands.group ↔ c0 ≠ 0#8 ∧ c1 ≠ 0#8 ∧ c2 ≠ 0#8 ∧ c3 ≠ 0#8 ∧ c4 ≠ 0#8 := by
    simp [hg, terminator, eq_comm (a := 0#8)]
  refine ⟨t, ht, ?_⟩
  rw [← hfull, hr]
  rcases encodeResults_selector_zero t.lowPairOrder hp hd with ⟨hmem, h⟩ | ⟨hmem, h⟩ <;> rw [h]
  · exact ⟨iff_of_false nofun (not_not.2 hmem), fun _ => rfl⟩
  · exact ⟨iff_of_true rfl hmem, nofun⟩

/-! Code words decoded back (R75, R80, R133). -/

/-- A string over the tri-state alphabet (R75). -/
def TriString (t : List Byte) : Prop := ∀ c ∈ t, c = char0 ∨ c = char1 ∨ c = charF

/-- The pair of a symbol maps back to it (R75, R125). -/
theorem triMap_symbolPair_append {c : Byte} (hc : c = char0 ∨ c = char1 ∨ c = charF) (b : List Byte) :
    triMap (symbolPair c ++ b) = (triMap b).map (c :: ·) := by
  rcases hc with rfl | rfl | rfl
  · exact triMap_cons char0 char0 b
  · exact triMap_cons char1 char1 b
  · exact triMap_cons char0 char1 b

/-- TriMap undoes T2B on tri-state strings (R125, R129). -/
theorem triMap_triToBinary : ∀ {t : List Byte}, TriString t → triMap (triToBinary t) = some t
  | [], _ => rfl
  | c :: t, h => by
    obtain ⟨hc, ht⟩ := List.forall_mem_cons.1 h
    have hpair : triMap (triToBinary (c :: t)) = (triMap (triToBinary t)).map (c :: ·) := triMap_symbolPair_append hc _
    rw [hpair, triMap_triToBinary ht, Option.map_some]

/-- The number a string writes fits in as many bits as it has characters (R53). -/
theorem binaryValue_lt_two_pow (b : List Byte) : binaryValue b < 2 ^ b.length := by
  induction b using List.reverseRecOn with
  | nil => decide
  | append_singleton b c ih =>
    have hc : binaryValue [c] ≤ 1 := by
      simp only [binaryValue, List.foldl]
      split_ifs <;> decide
    rw [binaryValue_append, List.length_append, List.length_singleton, pow_succ]
    omega

/-- The binary string of the number a string of binary characters writes is that string (R53, R122). -/
theorem binaryString_of_toNat_eq (b : List Byte) :
    ∀ {v : Word}, (∀ c ∈ b, c = char0 ∨ c = char1) → v.toNat = binaryValue b → binaryString v b.length = b := by
  induction b using List.reverseRecOn with
  | nil => exact fun _ _ => rfl
  | append_singleton b c ih =>
    intro v hb hv
    obtain ⟨hb, hc⟩ := List.forall_mem_append.1 hb
    obtain ⟨d, hd, hlast⟩ : ∃ d : Bool, binaryValue [c] = d.toNat ∧ c = if d then char1 else char0 := by
      rcases hc c (List.mem_singleton_self c) with rfl | rfl
      · exact ⟨false, rfl, rfl⟩
      · exact ⟨true, rfl, rfl⟩
    rw [binaryValue_append, List.length_singleton, pow_one, hd] at hv
    have hhalf : (v >>> 1).toNat = binaryValue b := by
      rw [BitVec.toNat_ushiftRight, Nat.shiftRight_eq_div_pow]
      have := d.toNat_le
      omega
    have hbit : v.getLsbD 0 = d := by
      rw [BitVec.getLsbD, hv, Nat.testBit_zero]
      cases d <;> simp
    rw [List.length_append, List.length_singleton, binaryString_succ, ih hb hhalf, hbit, ← hlast]

/-- The group's characters are `groupChar` 0 to 4 (R34, R77). -/
theorem exists_groupChar_of_mem_group {o : Operands} {c : Byte} (h : c ∈ o.group) : ∃ k < 5, groupChar o k = c := by
  simp only [Operands.group, List.mem_cons, List.not_mem_nil, or_false] at h
  rcases h with rfl | rfl | rfl | rfl | rfl
  exacts [⟨0, by decide, rfl⟩, ⟨1, by decide, rfl⟩, ⟨2, by decide, rfl⟩, ⟨3, by decide, rfl⟩, ⟨4, by decide, rfl⟩]

/-- The code word of a tri-state group is a tri-state string (R102 to R105). -/
theorem codeWord_triString {g : List Byte} (hg : TriString g) (order : LowPairOrder) (device : Word) (on : Bool) :
    TriString (codeWord order g device on) := by
  simp only [TriString, codeWord, List.forall_mem_append]
  refine ⟨⟨⟨hg, fun c hc => ?_⟩, fun c hc => ?_⟩, fun c hc => ?_⟩
  · obtain ⟨i, -, rfl⟩ := List.mem_map.1 hc
    split_ifs <;> simp
  · obtain ⟨i, -, rfl⟩ := List.mem_map.1 hc
    split_ifs <;> simp
  · revert c
    cases on <;> simp [commandField]

/-- The pairs of a code word never write 0: its command field holds a `'1'` (R105). -/
theorem binaryValue_codeWord_pos (order : LowPairOrder) (g : List Byte) (device : Word) (on : Bool) :
    0 < binaryValue (triToBinary (codeWord order g device on)) := by
  have hfield : 0 < binaryValue (triToBinary (commandField on)) := by cases on <;> decide
  rw [codeWord, triToBinary, List.flatMap_append, binaryValue_append]
  exact Nat.add_pos_right _ hfield

/-- DIAG of the 24 bits of twelve tri-state symbols, not all of them `'0'`, decodes those symbols (R133). -/
theorem diagResults_of_triToBinary {o : Operands} {t : List Byte} (ht : TriString t) (hlen : t.length = 12)
    (hpos : 0 < binaryValue (triToBinary t)) (hv : o.value = BitVec.ofNat 32 (binaryValue (triToBinary t)))
    (hn : o.bitLen = 24#32) :
    (diagResults o).status = okStatus 24 ∧ (diagResults o).diagInfo = { triLen := 12, rawCount := 49 } ∧
      (diagResults o).tout = toutOf t := by
  have hb : (triToBinary t).length = 24 := by rw [length_triToBinary, hlen]
  have hlt := binaryValue_lt_two_pow (triToBinary t)
  rw [hb] at hlt
  have hval : o.value.toNat = binaryValue (triToBinary t) := by
    rw [hv, BitVec.toNat_ofNat, Nat.mod_eq_of_lt (by omega)]
  have hbits : o.bitLen.toNat = 24 := by rw [hn]; rfl
  have hstr := binaryString_of_toNat_eq _ (triToBinary_chars t) hval
  rw [hb] at hstr
  have h0 : o.value ≠ 0#32 := by
    intro h
    rw [h] at hval
    exact hpos.ne hval
  rw [diagResults_decoded h0 (by omega) (by rwa [hval, hbits]), hbits, hstr, diagDecoded, triMap_triToBinary ht]
  exact ⟨rfl, rfl, rfl⟩

/-- The first twelve characters of OUT after a successful ENCODE are the code word (R80, R101). -/
theorem loadBytes_encodeResults_out (order : LowPairOrder) {o : Operands} (hp : o.encCtrl.groupPresent = true)
    (h0 : 0 ≤ o.device.toInt) (h5 : o.device.toInt < 5) (hg : ∀ k < 5, groupChar o k ≠ 0#8) :
    Memory.loadBytes (encodeResults order o).out 12 = codeWord order o.group o.device o.encCtrl.turnOn := by
  have hout : (encodeResults order o).out = outOf (codeWord order o.group o.device o.encCtrl.turnOn) := by
    rw [encodeResults_ok order o hp h0 h5 hg]
  have hload := loadBytes_outOf (codeWord order o.group o.device o.encCtrl.turnOn)
  rwa [length_codeWord (length_group o), ← hout] at hload

/-- Settles O38: the code word of a tri-state group is a tri-state string of twelve symbols, and its pairs are not 0. -/
theorem encodedWordDecodesBack : Obligations.EncodedWordDecodesBack := by
  intro s hp h0 h5 hg
  have hne : ∀ k < 5, groupChar s.operands k ≠ 0#8 := by
    intro k hk
    rcases hg k hk with h | h | h <;> rw [h] <;> decide
  have htri : TriString s.operands.group := by
    intro c hc
    obtain ⟨k, hk, rfl⟩ := exists_groupChar_of_mem_group hc
    exact hg k hk
  have hout := loadBytes_encodeResults_out s.lowPairOrder hp h0 h5 hne
  refine ⟨_, rfl, fun u hv hn => ⟨_, rfl, ?_⟩⟩
  rw [completeCommand_results, hout] at hv
  obtain ⟨hstatus, hinfo, htout⟩ := diagResults_of_triToBinary (codeWord_triString htri _ _ _)
    (length_codeWord (length_group _)) (binaryValue_codeWord_pos _ _ _ _) hv hn
  rw [readWord_status, readWord_diag, completeCommand_results, completeCommand_results, hstatus, hinfo, htout, hout]
  have hload := loadBytes_toutOf (codeWord s.lowPairOrder s.operands.group s.operands.device s.operands.encCtrl.turnOn)
  rw [length_codeWord (length_group _)] at hload
  exact ⟨rfl, rfl, hload⟩

end Sys2Proof.Machine

/-! The statements on 40_encoder: ENCODE's failures (O23), its code word (O22), the five device characters (O24), what may
be transmitted (O26), and that results come from the operands alone (O43). -/

namespace Sys2Proof.Machine
open Sys2Proof.Safety

/-! The failures of ENCODE (R101, R107, R108, R162). -/

/-- ENCODE completes with its results (R101). -/
theorem exec_encode (s : State) :
    exec .encode s = .next (completeCommand (encodeResults s.lowPairOrder s.operands) s) :=
  exec_command (i := .encode) rfl s

theorem encodeResults_groupAbsent (order : LowPairOrder) {o : Operands} (hp : o.encCtrl.groupPresent = false) :
    encodeResults order o = raiseError .groupAbsent := by
  rw [encodeResults, if_pos hp]

theorem encodeResults_deviceRange (order : LowPairOrder) {o : Operands} (hp : o.encCtrl.groupPresent = true)
    (hd : o.device.toInt < 0 ∨ 5 ≤ o.device.toInt) : encodeResults order o = raiseError .deviceRange := by
  have hrange : deviceInRange o.device = false := by
    rw [← Bool.not_eq_true, deviceInRange_iff]
    omega
  rw [encodeResults, if_neg (by simp [hp]), if_pos hrange]

theorem encodeResults_groupShort (order : LowPairOrder) {o : Operands} (hp : o.encCtrl.groupPresent = true)
    (h0 : 0 ≤ o.device.toInt) (h5 : o.device.toInt < 5) (hg : ∃ k < 5, groupChar o k = 0x00#8) :
    encodeResults order o = raiseError .groupShort := by
  have hrange : deviceInRange o.device = true := (deviceInRange_iff _).2 ⟨h0, h5⟩
  rw [encodeResults, if_neg (by simp [hp]), if_neg (by simp [hrange]), if_pos ((terminator_mem_group o).2 hg)]

/-- What an ENCODE that raises a cause leaves (R108, R161). -/
theorem exec_encode_failed {s : State} {c : Cause} (h : encodeResults s.lowPairOrder s.operands = raiseError c) :
    ∃ t, exec .encode s = .next t ∧ FailedWith c t.results ∧ readWord t 0x04#8 = (raiseError c).status.word := by
  refine ⟨_, exec_encode s, ?_⟩
  rw [readWord_status, completeCommand_results, h]
  exact ⟨failedWith_raiseError c, rfl⟩

/-- Settles O23: each clause is one of the three checks, those before it passed. -/
theorem encodeFailsInOrder : Obligations.EncodeFailsInOrder := fun _ =>
  ⟨fun hp => exec_encode_failed (encodeResults_groupAbsent _ hp),
    fun hp hd => exec_encode_failed (encodeResults_deviceRange _ hp hd),
    fun hp h0 h5 hg => exec_encode_failed (encodeResults_groupShort _ hp h0 h5 hg)⟩

/-! The code word, position by position (R102 to R105). -/

/-- Positions 0 to 4 are the group (R102). -/
theorem getD_codeWord_group (order : LowPairOrder) (o : Operands) (device : Word) (on : Bool) {k : Nat} (hk : k < 5) :
    (codeWord order o.group device on).getD k 0#8 = groupChar o k := by
  rw [codeWord_eq]
  interval_cases k <;> rfl

/-- Positions 5 to 7 name the devices 4, 3 and 2 (R103). -/
theorem getD_codeWord_high (order : LowPairOrder) (o : Operands) (device : Word) (on : Bool) {i : Nat} (hi : i < 3) :
    (codeWord order o.group device on).getD (5 + i) 0#8 =
      if device.toInt = 4 - (i : Int) then 0x31#8 else 0x46#8 := by
  have hdev : device.toInt = 4 - (i : Int) ↔ device = BitVec.ofNat 32 (4 - i) := by
    rw [device_eq_iff _ _ (by omega), Int.ofNat_sub (by omega)]
    rfl
  simp only [codeWord_eq, hdev]
  interval_cases i <;> rfl

/-- Positions 8 and 9 name the devices that the reading of the low pair gives them (R104). -/
theorem getD_codeWord_low (order : LowPairOrder) (o : Operands) (device : Word) (on : Bool) {i : Nat} (hi : i < 2) :
    (codeWord order o.group device on).getD (8 + i) 0#8 =
      if device.toInt = (match order with | .vector => (i : Int) | .formula => 1 - i) then 0x31#8 else 0x30#8 := by
  have hdev : device.toInt = (match order with | .vector => (i : Int) | .formula => 1 - i) ↔
      device = BitVec.ofNat 32 (lowFieldDevice order i) := by
    cases order with
    | vector => exact (device_eq_iff _ _ (by omega)).symm
    | formula =>
      rw [lowFieldDevice, device_eq_iff _ _ (by omega), Int.ofNat_sub (by omega)]
      rfl
  simp only [codeWord_eq, hdev]
  interval_cases i <;> rfl

/-- Positions 10 and 11 are the command (R105). -/
theorem getD_codeWord_command (order : LowPairOrder) (o : Operands) (device : Word) (on : Bool) :
    (codeWord order o.group device on).getD 10 0#8 = (if on then 0x30#8 else 0x31#8) ∧
      (codeWord order o.group device on).getD 11 0#8 = (if on then 0x31#8 else 0x30#8) := by
  rw [codeWord_eq]
  exact ⟨rfl, rfl⟩

/-- The code word ends with position 11 (R80). -/
theorem getD_codeWord_past (order : LowPairOrder) (o : Operands) (device : Word) (on : Bool) {i : Nat} (hi : 12 ≤ i) :
    (codeWord order o.group device on).getD i 0#8 = 0#8 :=
  List.getD_eq_default _ _ (by rwa [length_codeWord (length_group o)])

/-- What a successful ENCODE leaves (R101). -/
theorem exec_encode_ok {s : State} (hp : s.operands.encCtrl.groupPresent = true) (h0 : 0 ≤ s.operands.device.toInt)
    (h5 : s.operands.device.toInt < 5) (hg : ∀ k < 5, groupChar s.operands k ≠ 0x00#8) :
    exec .encode s =
      .next (completeCommand
        { clearedResults with
          out := outOf (codeWord s.lowPairOrder s.operands.group s.operands.device s.operands.encCtrl.turnOn)
          status := okStatus Config.codeLen } s) := by
  rw [exec_encode, encodeResults_ok _ _ hp h0 h5 hg]

/-- Settles O22: OUT is the code word, read by the positions above, over the cleared results. -/
theorem encodeBuildsCodeWord : Obligations.EncodeBuildsCodeWord := by
  intro s hp h0 h5 hg
  refine ⟨_, exec_encode_ok hp h0 h5 hg, rfl, ?_⟩
  simp only [readWord_status, readWord_diag, completeCommand_results, read_outOf]
  obtain ⟨h10, h11⟩ := getD_codeWord_command s.lowPairOrder s.operands s.operands.device s.operands.encCtrl.turnOn
  exact ⟨rfl, fun _ => getD_codeWord_group _ _ _ _, fun _ => getD_codeWord_high _ _ _ _,
    fun _ => getD_codeWord_low _ _ _ _, h10, h11, fun _ => getD_codeWord_past _ _ _ _, blank_nil, rfl⟩

/-! The five device characters (R103, R104, R106). -/

/-- Positions 5 to 9 are the high field and then the low one (R80). -/
theorem map_getD_codeWord_device (order : LowPairOrder) (o : Operands) (device : Word) (on : Bool) :
    (List.range 5).map (fun i => (codeWord order o.group device on).getD (5 + i) 0#8) =
      highField device ++ lowField order device := rfl

/-- A row of the table of R106: a legal selector, the five device characters ENCODE gives it under the row's reading of the low
pair, and exactly one `'1'` among them. -/
def IsDeviceRow (row : LowPairOrder × Word × List Byte) : Prop :=
  0 ≤ row.2.1.toInt ∧ row.2.1.toInt < 5 ∧ highField row.2.1 ++ lowField row.1 row.2.1 = row.2.2 ∧
    row.2.2.count 0x31#8 = 1

/-- Settles O24: each of the ten rows is one (`IsDeviceRow`), and the code word's device characters are its two fields. -/
theorem deviceFieldPatterns : Obligations.DeviceFieldPatterns := by
  intro s pattern hp hg hmem
  have hrow : IsDeviceRow (s.lowPairOrder, s.operands.device, pattern) := by
    refine (?_ : ∀ row ∈ _, IsDeviceRow row) _ hmem
    unfold IsDeviceRow
    decide
  obtain ⟨h0, h5, hfields, hone⟩ := hrow
  refine ⟨_, exec_encode_ok hp h0 h5 hg, ?_⟩
  simpa only [completeCommand_results, read_outOf, map_getD_codeWord_device, hfields, true_and] using hone

/-! What may be transmitted (R108, R171). -/

/-- Settles O26: OUT_LEN is 12 after a success, and a failure leaves OUT cleared. -/
theorem onlySuccessfulCodeWordIsTransmitted : Obligations.OnlySuccessfulCodeWordIsTransmitted := by
  intro s
  refine ⟨_, exec_encode s, ?_⟩
  rw [transmittable, completeCommand_results]
  rcases encodeResults_cases s.operands with ⟨c, h⟩ | h <;> rw [h]
  · exact ⟨nofun, fun _ => ⟨rfl, blank_nil⟩⟩
  · exact ⟨fun _ => ⟨_, rfl, Memory.length_loadBytes _ 12⟩, nofun⟩

/-! Results from the operands alone (R109, R161, R195). -/

/-- Settles O43: `exec_command` gives a command's results from the parameter, the command and the operands. -/
theorem resultsDependOnOperandsOnly : Obligations.ResultsDependOnOperandsOnly := by
  intro i s s' hc horder ho
  refine ⟨_, _, exec_command hc s, exec_command hc s', ?_, rfl⟩
  rw [completeCommand_results, completeCommand_results, horder, ho]

end Sys2Proof.Machine

/-! The statements on 41_capture_decoder: TO_BINARY (O28, O29), the pairwise mapping (O31, O32), TO_TRISTATE (O33, O34), DIAG
(O35, O36, O37), and the host's report of it (O39). -/

namespace Sys2Proof.Machine
open Sys2Proof.Safety

/-! What a command leaves, by its name (R56, R161). -/

/-- TO_BINARY completes with its results (R121). -/
theorem exec_toBinary (s : State) : exec .toBinary s = .next (completeCommand (toBinaryResults s.operands) s) :=
  exec_command (i := .toBinary) rfl s

/-- TO_TRISTATE completes with its results (R127). -/
theorem exec_toTristate (s : State) : exec .toTristate s = .next (completeCommand (toTristateResults s.operands) s) :=
  exec_command (i := .toTristate) rfl s

/-- DIAG completes with its results (R133). -/
theorem exec_diag (s : State) : exec .diag s = .next (completeCommand (diagResults s.operands) s) :=
  exec_command (i := .diag) rfl s

/-- What a command that raises a cause leaves (R161). -/
theorem exec_command_failed {i : Instr} {s : State} {c : Cause} (hi : runsCommand i = true)
    (h : commandResults s.lowPairOrder (commandOf i) s.operands = raiseError c) :
    ∃ t, exec i s = .next t ∧ FailedWith c t.results ∧ readWord t 0x04#8 = (raiseError c).status.word := by
  refine ⟨_, exec_command hi s, ?_⟩
  rw [readWord_status, completeCommand_results, h]
  exact ⟨failedWith_raiseError c, rfl⟩

/-! TO_BINARY (R121 to R123). -/

/-- STATUS of a success: OK, DONE, and the length in bits 15:8 (R25). -/
theorem okStatus_word : ∀ n ≤ 64, (okStatus n).word = 0x00010001#32 ||| (BitVec.ofNat 32 n <<< 8) := by decide

/-- A 32-bit value has no bit from 32 on, so the characters before its last 32 are padding (R10, R122). -/
theorem getD_binaryString_padding (v : Word) {n j : Nat} (hj : 32 + j < n) : (binaryString v n).getD j 0#8 = char0 := by
  rw [getD_binaryString v (by omega), BitVec.getLsbD_of_ge v _ (by omega)]
  rfl

/-- Past its last character a string in OUT is 0x00 (R41). -/
theorem getD_binaryString_past (v : Word) {n j : Nat} (hj : n ≤ j) : (binaryString v n).getD j 0#8 = 0#8 :=
  List.getD_eq_default _ _ (by rwa [length_binaryString])

/-- Settles O28: OUT is the binary string over the cleared results, and its characters are the bits of VALUE. -/
theorem toBinaryWritesBits : Obligations.ToBinaryWritesBits := by
  intro s hn hv
  have hstatus := okStatus_word _ hn
  rw [BitVec.ofNat_toNat, BitVec.setWidth_eq] at hstatus
  refine ⟨_, exec_toBinary s, rfl, ?_⟩
  simp only [readWord_status, readWord_diag, completeCommand_results, toBinaryResults_ok hn hv, read_outOf]
  exact ⟨hstatus, fun _ => getD_binaryString _, fun _ => getD_binaryString_padding _,
    fun _ => getLsbD_of_lt_two_pow hv, fun _ => getD_binaryString_past _, blank_nil, rfl⟩

/-- Settles O29: the two failures of BINARY. -/
theorem toBinaryFailsInOrder : Obligations.ToBinaryFailsInOrder := fun _ =>
  ⟨fun hn => exec_command_failed rfl (toBinaryResults_bitLenRange hn),
    fun hn hv => exec_command_failed rfl (toBinaryResults_valueTooWide hn hv)⟩

/-! The pairwise mapping (R125, R126, R129). -/

/-- A string's tri-state string is the symbol of its first pair and the tri-state string of the rest (R125). -/
theorem triMap_cons_eq_some {a b : Byte} {rest t : List Byte} (h : triMap (a :: b :: rest) = some t) :
    ∃ x ts, triSymbol a b = some x ∧ triMap rest = some ts ∧ t = x :: ts := by
  rw [triMap_cons, Option.bind_eq_some_iff] at h
  obtain ⟨x, hx, h⟩ := h
  obtain ⟨ts, hts, rfl⟩ := Option.map_eq_some_iff.1 h
  exact ⟨x, ts, hx, hts, rfl⟩

/-- Only a valid pair has a symbol, and it is the one of R75. -/
theorem eq_pairSymbol_of_triSymbol {a b x : Byte} (h : triSymbol a b = some x) : x = pairSymbol a b := by
  have hvalid : ValidPair a b := by
    by_contra hn
    rw [(triSymbol_eq_none_iff a b).1 hn] at h
    cases h
  rw [(validPair_iff a b).1 hvalid] at h
  exact (Option.some.inj h).symm

/-- The sentinel arises from an odd length or an invalid pair, and from nothing else (R125, R126). -/
theorem triMap_eq_none_iff : ∀ s : List Byte,
    triMap s = none ↔
      s.length % 2 = 1 ∨ ∃ k, 2 * k + 1 < s.length ∧ ¬ValidPair (s.getD (2 * k) 0#8) (s.getD (2 * k + 1) 0#8)
  | [] => by simp [triMap]
  | [_] => by simp [triMap]
  | a :: b :: rest => by
    have hpairs : triMap (a :: b :: rest) = none ↔ ¬ValidPair a b ∨ triMap rest = none := by
      rw [triMap_cons, triSymbol_eq_none_iff]
      cases triSymbol a b <;> simp
    have hodd : (a :: b :: rest).length % 2 = rest.length % 2 := Nat.add_mod_right rest.length 2
    have hlt (k : Nat) : 2 * (k + 1) + 1 < (a :: b :: rest).length ↔ 2 * k + 1 < rest.length := by
      simp only [List.length_cons]
      omega
    rw [hpairs, hodd, ← Nat.or_exists_add_one, or_left_comm, and_iff_right (by simp)]
    simp only [hlt]
    exact or_congr_right (triMap_eq_none_iff rest)

/-- Symbol `k` of a tri-state string is that of pair `k` (R75, R125). -/
theorem getD_of_triMap : ∀ {s t : List Byte}, triMap s = some t → ∀ {k : Nat}, k < t.length →
    t.getD k 0#8 = pairSymbol (s.getD (2 * k) 0#8) (s.getD (2 * k + 1) 0#8)
  | [], _, h, _, hk => by
    obtain rfl := Option.some.inj h
    cases hk
  | [_], _, h, _, _ => by cases h
  | a :: b :: rest, _, h, k, hk => by
    obtain ⟨x, ts, hx, hts, rfl⟩ := triMap_cons_eq_some h
    cases k with
    | zero => exact eq_pairSymbol_of_triSymbol hx
    | succ k => exact getD_of_triMap hts (Nat.lt_of_succ_lt_succ hk)

/-- Settles O31: `triMap_eq_none_iff` says when there is no string, `length_of_triMap` and `getD_of_triMap` which it is. -/
theorem triMapIsAllOrNothing : Obligations.TriMapIsAllOrNothing := by
  intro s
  refine ⟨fun hodd => (triMap_eq_none_iff s).2 (.inl hodd), fun hbad => (triMap_eq_none_iff s).2 (.inr hbad),
    fun heven hvalid => ?_⟩
  have hsome : triMap s ≠ none := by
    rw [Ne, triMap_eq_none_iff]
    push Not
    exact ⟨by omega, hvalid⟩
  obtain ⟨t, ht⟩ := Option.ne_none_iff_exists'.1 hsome
  have hlen := length_of_triMap ht
  exact ⟨t, ht, by omega, fun _ => getD_of_triMap ht⟩

/-- The pair of a symbol is the pair it came from (R75). -/
theorem symbolPair_of_triSymbol {a b x : Byte} (h : triSymbol a b = some x) : symbolPair x = [a, b] := by
  unfold triSymbol at h
  split_ifs at h with h1 h2 h3 <;> obtain rfl := Option.some.inj h
  · rw [h1.1, h1.2]
    rfl
  · rw [h2.1, h2.2]
    rfl
  · rw [h3.1, h3.2]
    rfl

/-- T2B undoes TriMap wherever it answers a string (R129). -/
theorem triToBinary_of_triMap : ∀ {s t : List Byte}, triMap s = some t → triToBinary t = s
  | [], _, h => by
    obtain rfl := Option.some.inj h
    rfl
  | [_], _, h => by cases h
  | a :: b :: rest, _, h => by
    obtain ⟨x, ts, hx, hts, rfl⟩ := triMap_cons_eq_some h
    rw [triToBinary, List.flatMap_cons, symbolPair_of_triSymbol hx, ← triToBinary, triToBinary_of_triMap hts]
    rfl

/-- Settles O32. -/
theorem triMapRoundTrips : Obligations.TriMapRoundTrips :=
  ⟨fun _ => triMap_triToBinary, fun _ _ => triToBinary_of_triMap⟩

/-! TO_TRISTATE (R127, R128). -/

@[simp] theorem length_tinString (o : Operands) : o.tinString.length = o.tinLen.toNat := Memory.length_loadBytes _ _

/-- The characters of TO_TRISTATE's string are the bytes of TIN (R79). -/
theorem getD_tinString (o : Operands) {i : Nat} (hi : i < o.tinLen.toNat) :
    o.tinString.getD i 0#8 = Memory.read o.tin i :=
  getD_loadBytes o.tin hi

/-- TO_TRISTATE finds the sentinel exactly in an odd length or an invalid pair of TIN (R125, R127). -/
theorem triMap_tinString_eq_none_iff (o : Operands) :
    triMap o.tinString = none ↔
      o.tinLen.toNat % 2 = 1 ∨
        ∃ k, 2 * k + 1 < o.tinLen.toNat ∧ ¬ValidPair (Memory.read o.tin (2 * k)) (Memory.read o.tin (2 * k + 1)) := by
  rw [triMap_eq_none_iff, length_tinString]
  refine or_congr_right (exists_congr fun k => and_congr_right fun hk => ?_)
  rw [getD_tinString o (by omega), getD_tinString o hk]

/-- DIAG_INFO with no raw samples reads as the tri-state length (R38). -/
theorem diagInfo_word_triLen :
    ∀ n ≤ 32, DiagInfo.word { triLen := BitVec.ofNat 8 n, rawCount := 0 } = BitVec.ofNat 32 n := by decide

/-- Settles O33: the three cases of TO_TRISTATE's results. -/
theorem toTristateOutcomes : Obligations.ToTristateOutcomes := by
  refine fun s => ⟨fun hm heven hvalid => ?_, fun hm hbad => ?_,
    fun hm => exec_command_failed rfl (toTristateResults_tinLenRange hm)⟩
  · have hsome : triMap s.operands.tinString ≠ none := by
      rw [Ne, triMap_tinString_eq_none_iff]
      push Not
      exact ⟨by omega, hvalid⟩
    obtain ⟨x, hx⟩ := Option.ne_none_iff_exists'.1 hsome
    have hlen := length_of_triMap hx
    rw [length_tinString] at hlen
    refine ⟨_, exec_toTristate s, rfl, ?_⟩
    simp only [readWord_status, readWord_diag, completeCommand_results, toTristateResults_ok hm hx, read_toutOf]
    refine ⟨rfl, blank_nil, diagInfo_word_triLen _ (by omega), fun k hk => ?_,
      fun k hk => List.getD_eq_default _ _ (by omega)⟩
    rw [getD_of_triMap hx (by omega), getD_tinString _ (by omega), getD_tinString _ (by omega)]
  · refine ⟨_, exec_toTristate s, ?_⟩
    rw [readWord_status, readWord_diag, completeCommand_results,
      toTristateResults_na hm ((triMap_tinString_eq_none_iff _).2 hbad)]
    exact ⟨rfl, rfl, blank_nil, blank_nil⟩

/-- TO_TRISTATE's string is the bytes of TIN below TIN_LEN (R79, R128). -/
theorem tinString_congr {o o' : Operands} (hlen : o.tinLen = o'.tinLen)
    (htin : ∀ i < o.tinLen.toNat, Memory.read o.tin i = Memory.read o'.tin i) : o.tinString = o'.tinString := by
  rw [Operands.tinString, Operands.tinString, ← hlen]
  exact List.map_congr_left fun i hi => htin i (List.mem_range.1 hi)

/-- Settles O34: TO_TRISTATE takes TIN_LEN and its string alone. -/
theorem tinBeyondLengthUnread : Obligations.TinBeyondLengthUnread := by
  intro s s' hlen htin
  refine ⟨_, _, exec_toTristate s, exec_toTristate s', ?_⟩
  rw [completeCommand_results, completeCommand_results, toTristateResults, toTristateResults, hlen,
    tinString_congr hlen htin]

/-! DIAG (R133 to R135). -/

/-- Settles O35: value 0 comes before every check. -/
theorem diagOfZeroIsUnknown : Obligations.DiagOfZeroIsUnknown := by
  intro s h0
  refine ⟨_, exec_diag s, ?_⟩
  rw [readWord_status, readWord_diag, completeCommand_results, diagResults_unknown h0]
  exact ⟨rfl, rfl, blank_nil, blank_nil⟩

/-- Settles O37: the two failures of BINARY, once the value is not 0. -/
theorem diagFailsInOrder : Obligations.DiagFailsInOrder := fun _ h0 =>
  ⟨fun hn => exec_command_failed rfl (diagResults_bitLenRange h0 hn),
    fun hn hv => exec_command_failed rfl (diagResults_valueTooWide h0 hn hv)⟩

/-- A decoded capture's STATUS is a success with OUT_LEN `n`, NA set exactly by the sentinel (R133, R135). -/
theorem diagDecoded_status (n : Nat) (b : List Byte) :
    (diagDecoded n b).status = { okStatus n with na := (triMap b).isNone } := by
  unfold diagDecoded
  cases triMap b <;> rfl

/-- RAW_COUNT is `2n + 1`, the sentinel or not (R133). -/
theorem diagDecoded_rawCount (n : Nat) (b : List Byte) :
    (diagDecoded n b).diagInfo.rawCount = BitVec.ofNat 8 (2 * n + 1) := by
  unfold diagDecoded
  cases triMap b <;> rfl

/-- The binary string stays in OUT, the sentinel or not (R135). -/
theorem diagDecoded_out (n : Nat) (b : List Byte) : (diagDecoded n b).out = outOf b := by
  unfold diagDecoded
  cases triMap b <;> rfl

/-- With the sentinel there is no tri-state string (R126, R135). -/
theorem diagDecoded_triState_of_none (n : Nat) {b : List Byte} (h : triMap b = none) :
    (diagDecoded n b).diagInfo.triLen = 0 ∧ (diagDecoded n b).tout = [] := by
  rw [diagDecoded, h]
  exact ⟨rfl, rfl⟩

/-- Without the sentinel TOUT holds the tri-state string (R133). -/
theorem diagDecoded_triState_of_some (n : Nat) {b t : List Byte} (h : triMap b = some t) :
    (diagDecoded n b).diagInfo.triLen = BitVec.ofNat 8 (n / 2) ∧ (diagDecoded n b).tout = toutOf t := by
  rw [diagDecoded, h]
  exact ⟨rfl, rfl⟩

/-- A value that is not 0 takes at least one bit (R135). -/
theorem one_le_of_ne_zero {v : Word} {n : Nat} (h0 : v ≠ 0#32) (hv : v.toNat < 2 ^ n) : 1 ≤ n := by
  rcases Nat.eq_zero_or_pos n with rfl | hn
  · exact absurd (BitVec.eq_of_toNat_eq (by simpa using hv)) h0
  · exact hn

/-- Of the four pairs of binary characters only `"10"` is invalid (R75). -/
theorem not_validPair_of_bits (x y : Bool) :
    ¬ValidPair (if x then char1 else char0) (if y then char1 else char0) ↔ x = true ∧ y = false := by
  unfold ValidPair
  revert x y
  decide

/-- The sentinel arises from a binary string of odd length or with a pair `"10"`, and from nothing else (R135). -/
theorem triMap_binaryString_eq_none_iff (v : Word) (n : Nat) :
    triMap (binaryString v n) = none ↔
      n % 2 = 1 ∨ ∃ k, 2 * k + 1 < n ∧ v.getLsbD (n - 1 - 2 * k) = true ∧ v.getLsbD (n - 2 - 2 * k) = false := by
  rw [triMap_eq_none_iff, length_binaryString]
  refine or_congr_right (exists_congr fun k => and_congr_right fun hk => ?_)
  rw [getD_binaryString v (by omega), getD_binaryString v hk, not_validPair_of_bits,
    show n - 1 - (2 * k + 1) = n - 2 - 2 * k by omega]

/-- Settles O36: the results are those of a decoded capture, and `triMap_binaryString_eq_none_iff` says when it has no tri-state
string. -/
theorem diagDecodesCapture : Obligations.DiagDecodesCapture := by
  intro s h0 hn hv
  have hpos := one_le_of_ne_zero h0 hv
  have hraw : (BitVec.ofNat 8 (2 * s.operands.bitLen.toNat + 1)).toNat = 2 * s.operands.bitLen.toNat + 1 :=
    toNat_ofNat_length (by omega)
  refine ⟨_, exec_diag s, rfl, ?_⟩
  simp only [completeCommand_results, diagResults_decoded h0 hn hv, diagDecoded_status, diagDecoded_rawCount,
    diagDecoded_out, read_outOf, hraw, ← triMap_binaryString_eq_none_iff, Option.isNone_iff_eq_none,
    Option.isNone_eq_false_iff, true_and]
  refine ⟨rfl, rfl, rfl, rfl, toNat_ofNat_length (by omega), hpos, by omega, by omega, fun _ => getD_binaryString _,
    fun _ => getD_binaryString_past _, fun hnone => ?_, fun hsome => ?_⟩
  · obtain ⟨hlen, htout⟩ := diagDecoded_triState_of_none s.operands.bitLen.toNat hnone
    rw [hlen, htout]
    exact ⟨rfl, blank_nil⟩
  · obtain ⟨x, hx⟩ := Option.isSome_iff_exists.1 hsome
    obtain ⟨hlen, htout⟩ := diagDecoded_triState_of_some s.operands.bitLen.toNat hx
    have hxlen := length_of_triMap hx
    rw [length_binaryString] at hxlen
    simp only [hlen, htout, read_toutOf]
    exact ⟨toNat_ofNat_length (by omega), fun k hk => getD_of_triMap hx (by omega),
      fun k hk => List.getD_eq_default _ _ (by omega)⟩

/-! The host's report (R141 to R143). -/

/-- The tri-state field of a decoded capture (R142). -/
theorem triStateField_diagDecoded {n : Nat} {b : List Byte} (hb : b.length = n) (hn : n ≤ 64) :
    triStateField (diagDecoded n b) = (triMap b).elim .notApplicable .triState := by
  rw [triStateField, diagDecoded_status]
  cases ht : triMap b with
  | none => rfl
  | some t =>
    obtain ⟨hlen, htout⟩ := diagDecoded_triState_of_some n ht
    have htlen := length_of_triMap ht
    rw [hlen, htout, toNat_ofNat_length (by omega), show n / 2 = t.length by omega, loadBytes_toutOf]
    rfl

/-- A failed command has no report (log entry 11). -/
theorem report_raiseError (c : CapturedSample) (e : Cause) (s : State) :
    report c (completeCommand (raiseError e) s) = none := rfl

/-- The report of a decoded capture (R142, R143). -/
theorem report_diagDecoded (c : CapturedSample) (s : State) {n : Nat} {b : List Byte} (hb : b.length = n) (hn : n ≤ 64) :
    report c (completeCommand (diagDecoded n b) s) =
      some [.decimalValue s.operands.value.toNat, .bitCount s.operands.bitLen.toNat, .binary b,
        (triMap b).elim .notApplicable .triState, .pulseLength c.interPulseDelay, .protocolId c.protocolId,
        .rawPulses (c.rawPulses.take (2 * n + 1))] := by
  have hok : (diagDecoded n b).status.ok = true ∧ (diagDecoded n b).status.unknown = false := by
    rw [diagDecoded_status]
    exact ⟨rfl, rfl⟩
  have hlen : (diagDecoded n b).status.outLen.toNat = b.length := by
    rw [diagDecoded_status, hb]
    exact toNat_ofNat_length (by omega)
  have hraw : (diagDecoded n b).diagInfo.rawCount.toNat = 2 * n + 1 := by
    rw [diagDecoded_rawCount]
    exact toNat_ofNat_length (by omega)
  simp [report, hok, hlen, hraw, diagDecoded_out, loadBytes_outOf, triStateField_diagDecoded hb hn]

/-- Settles O39: the report of each of DIAG's outcomes. -/
theorem reportFieldsInOrder : Obligations.ReportFieldsInOrder := by
  refine fun s c => ⟨fun h0 => ⟨_, exec_diag s, ?_⟩, fun h0 hn hv => ⟨_, exec_diag s, ?_⟩,
    fun h0 hbad => ⟨_, exec_diag s, ?_⟩⟩
  · rw [diagResults_unknown h0]
    rfl
  · rw [diagResults_decoded h0 hn hv, report_diagDecoded c s (length_binaryString _ _) hn]
    cases triMap (binaryString s.operands.value s.operands.bitLen.toNat) <;> rfl
  · rcases binary_cases s.operands.value s.operands.bitLen.toNat with ⟨hn, -⟩ | ⟨hn, hv, -⟩ | ⟨hn, hv, -⟩
    · rw [diagResults_bitLenRange h0 hn, report_raiseError]
    · rw [diagResults_valueTooWide h0 hn hv, report_raiseError]
    · omega

end Sys2Proof.Machine

/-! The statements on 70_reset_and_hazards: the reset input (O2) and the commands on the reset operands (O3). -/

namespace Sys2Proof.Machine
open Sys2Proof.Safety

/-! The reset input (R180, R181). -/

/-- A step serves the reset input whole (R180). -/
theorem step_reset {s : State} {rest : List PortInput} (h : s.inputs = .reset :: rest) :
    step s = .next (applyReset (withInputs rest s)) := by
  rw [step, h]
  rfl

/-- Reads see the operands and the results alone (R20, R23). -/
theorem sameReads_of_registers {s t : State} (ho : t.operands = s.operands) (hr : t.results = s.results) :
    SameReads s t := by
  intro off
  rw [readWord, readWord]
  cases locate off <;> simp only [readLocation, ho, hr]

/-- After the reset input every offset reads as it does in the reset state (R180). -/
theorem sameReads_applyReset (s : State) : SameReads State.reset (applyReset s) :=
  sameReads_of_registers rfl rfl

/-- Settles O2: the step is `applyReset`, which reads as the reset state (`sameReads_applyReset`), and that reads 0 by O1. -/
theorem resetInputRestoresResetState : Obligations.ResetInputRestoresResetState := by
  intro s rest h
  obtain ⟨hzero, -⟩ := resetStateReadsZero
  exact ⟨_, step_reset h, rfl, rfl, fun off => (sameReads_applyReset _ off).trans (hzero off), rfl, rfl, rfl⟩

/-! The commands on the reset operands (R183). -/

/-- ENCODE finds no group in the reset operands (R101, R183). -/
theorem exec_encode_reset :
    ∃ t, exec .encode State.reset = .next t ∧ FailedWith .groupAbsent t.results ∧ readWord t 0x04#8 = 0x00010020#32 := by
  obtain ⟨habsent, -⟩ := encodeFailsInOrder State.reset
  exact habsent rfl

/-- TO_BINARY writes the empty string: the reset VALUE fits the reset BITLEN, which leaves OUT no character (R121, R183). -/
theorem exec_toBinary_reset :
    ∃ t, exec .toBinary State.reset = .next t ∧ readWord t 0x04#8 = 0x00010001#32 ∧ Blank t.results.out := by
  obtain ⟨t, ht, -, hstatus, -, -, -, hpast, -⟩ := toBinaryWritesBits State.reset (by decide) (by decide)
  exact ⟨t, ht, hstatus, fun i => hpast i (Nat.zero_le i)⟩

/-- TO_TRISTATE writes the empty tri-state string: the reset TIN_LEN is even and has no pair (R127, R183). -/
theorem exec_toTristate_reset :
    ∃ t, exec .toTristate State.reset = .next t ∧ readWord t 0x04#8 = 0x00010001#32 ∧ readWord t 0x24#8 = 0#32 ∧
      Blank t.results.tout := by
  obtain ⟨hvalid, -⟩ := toTristateOutcomes State.reset
  obtain ⟨t, ht, -, hstatus, -, hlen, -, hpast⟩ :=
    hvalid (by decide) rfl fun _ hk => absurd hk (Nat.not_lt_zero _)
  exact ⟨t, ht, hstatus, hlen, fun i => hpast i (Nat.zero_le i)⟩

/-- DIAG finds the reset VALUE unknown (R134, R183). -/
theorem exec_diag_reset : ∃ t, exec .diag State.reset = .next t ∧ readWord t 0x04#8 = 0x00010005#32 := by
  obtain ⟨t, ht, hstatus, -⟩ := diagOfZeroIsUnknown State.reset rfl
  exact ⟨t, ht, hstatus⟩

/-- Settles O3: each command's own statement (O23, O28, O33, O35), taken at the reset operands. -/
theorem commandsAfterReset : Obligations.CommandsAfterReset :=
  ⟨exec_encode_reset, exec_toBinary_reset, exec_toTristate_reset, exec_diag_reset⟩

end Sys2Proof.Machine
